-- ==== Sys2Proof/Word.lean ====
section
/-! DEFINITION. The machine's word and the small index types of its fields (00_scope.md R8, R10, R11). -/

namespace Sys2Proof

/-- A 16-bit string: a register, a memory cell, an address or the pc (00_scope.md R8, R11). `+` and `-` on it
are modulo 65536. -/
abbrev Word := BitVec 16

/-- One of the four 4-bit blocks of an instruction word (30_encoding.md R60). -/
abbrev Nibble := BitVec 4

/-- A general register number, 0 to 15 (10_state.md R22). -/
abbrev Reg := Fin 16

end Sys2Proof
end

