-- ==== Sys2Proof/Config.lean ====
section
/-! DEFINITION. What one implementation fixes: the parameters that the source leaves open and the spec names
(00_scope.md R9). The values they have at the start of a run stand in Machine/Parameters.lean. The one free value of
the model, a file name of the translator, stands at the end. -/

namespace Sys2Proof

/-- `IMM_DECODE`: how a 4-bit immediate field is read as a number. The two candidate readings that the spec
tables (30_encoding.md R66). -/
inductive ImmDecode where
  | twosComplement
  | signMagnitude
  deriving DecidableEq, Repr

/-- `CMP_SIGNED`: how `>` and `>=` read their operands (41_branches.md R110). -/
inductive CmpReading where
  | signed
  | unsigned
  deriving DecidableEq, Repr

/-- `NOT_S2_POLICY`: what opcode 0000 does when its third field is not r0 (40_alu_register.md R100). -/
inductive NotS2Policy where
  | datapath
  | refuse
  deriving DecidableEq, Repr

/-- The open parameters of a run (00_scope.md R9; 70_reset_and_hazards.md R204 `params_fixed`). -/
structure Params where
  immDecode : ImmDecode
  cmp       : CmpReading
  notS2     : NotS2Policy
  deriving DecidableEq, Repr

/-- `IMEM_CELLS` and `DMEM_CELLS`: the number of cells of each memory (00_scope.md R8). -/
def Config.cells : Nat := 65536

/-- A free value: the name of the file that the translator creates where `salida` is omitted, by the name of the source
file. "The name of the output when `salida` is omitted is not stated" (30_encoding.md R86; log 27). -/
opaque Config.omittedOutput : List Char → List Char

end Sys2Proof
end

