-- ==== Sys2Proof/Machine/Parameters.lean ====
section
/-! DEFINITION. The values with which a run starts where the source gives none: the spec's defaults for its open
parameters, and the model's own choices for reset. Each is one small definition, so that it can be mended alone. -/

namespace Sys2Proof.Machine

/-- The defaults of 00_scope.md R9: two's complement (D2), signed (D6), datapath (D8). DESIGN CHOICE of the spec,
not of the source; logs 3, 5 and 6 (unsafe). -/
def initialParams : Params where
  immDecode := .twosComplement
  cmp := .signed
  notS2 := .datapath

/-- `RESET_PC` (70_reset_and_hazards.md R201, D9). DESIGN CHOICE of the spec; log 11 (unsafe). -/
def resetPc : Word := 0x0000#16

/-- `REG_RESET`: the value of r1 to r15 at reset. DESIGN CHOICE: the spec gives none; log 8 (unsafe). -/
def resetRegister : Word := 0x0000#16

/-- `DMEM_INIT`: what a data cell reads as when nothing is listed for it. DESIGN CHOICE: the spec gives no
contents; log 9 (unsafe). -/
def unlistedCell : Word := 0x0000#16

end Sys2Proof.Machine
end

