-- ==== Sys2Proof/Machine/State.lean ====
section
/-! DEFINITION. The architectural state, whole (10_state.md R20), and the state at the start of a run (R33). -/

namespace Sys2Proof.Machine

/-- A memory: (address, 16-bit cell) pairs, addresses strictly rising. The cell and not the byte is the unit: an
address names 16 bits (20_memory.md R41) and a byte order must not be exposed (R43, D13; log 1). -/
abbrev Memory := List (Nat × Word)

/-- The state of the machine (10_state.md R20). -/
structure State where
  /-- r1 to r15: `x[i]` stands at index `i - 1`. r0 is a constant and has no storage (R21, R22). -/
  x : Vector Word 15
  /-- The program counter, an instruction-memory address (R25). -/
  pc : Word
  /-- The data memory (R31); an unlisted cell reads as `unlistedCell`. -/
  dmem : Memory
  /-- The instruction memory (R30); an unlisted cell has no value (R33). -/
  imem : Memory
  /-- The model's own field: the open parameters' values for this run, changed by no step (log 2). -/
  params : Params
  deriving DecidableEq, Repr

/-- The model faults of 60_exceptions.md R182 (log 20). The hardware has no faults (R180): each marks a point where
the source gives a word no meaning. All are raised by fetch and decode, before any effect; all are SAFE. -/
inductive Fault where
  /-- The opcode is 1101, 1110 or 1111 (30_encoding.md R71). Raised by `fetchDecode`. Safe. -/
  | illegalOpcode (pc w : Word)
  /-- An immediate field that `IMM_DECODE` gives no value (R72 a). Raised by `fetchDecode`. Safe. -/
  | reservedImmediate (pc w : Word)
  /-- `not` with i3 not 0000 under `NOT_S2_POLICY = refuse` (R72 b). Raised by `fetchDecode`. Safe. -/
  | undocumentedForm (pc w : Word)
  /-- The pc addresses a cell the image does not cover (10_state.md R33). Raised by `fetchDecode`. Safe. -/
  | noInstruction (pc : Word)
  deriving DecidableEq, Repr

/-- Why the model gives an instruction no meaning. -/
inductive Refusal where
  /-- Raised by an arm of `exec` whose instruction has no meaning yet; no arm of this model raises it. Safe. -/
  | notModelled (mnemonic : String)
  deriving DecidableEq, Repr

/-- What one step answers on this machine. -/
abbrev Answer := Host.Outcome State Fault Refusal

/-- The start of a run before the host has loaded anything (10_state.md R33): pc at `RESET_PC`, both memories with
nothing listed, r1 to r15 at the value the model names (log 8), the parameters at the spec's defaults. -/
def State.reset : State where
  x := Vector.replicate 15 resetRegister
  pc := resetPc
  dmem := []
  imem := []
  params := initialParams

end Sys2Proof.Machine
end

