-- ==== Sys2Proof/Machine/Ops.lean ====
section
/-! DEFINITION. The named operations over registers, memories and the pc (00_scope.md R12, 20_memory.md R46), and
the shapes that several instructions share.

There is no operation that takes an exception and none that returns from one: the hardware has neither
(60_exceptions.md R180, R185, R187). -/

namespace Sys2Proof.Machine

/-! ## Memories as lists of cells -/

/-- The cell listed for an address, if one is. -/
def Memory.find? : Memory → Nat → Option Word
  | [], _ => none
  | (k, v) :: rest, a => if k = a then some v else Memory.find? rest a

/-- List a cell for an address, in the place of the one listed before. -/
def Memory.insert : Memory → Nat → Word → Memory
  | [], a, v => [(a, v)]
  | (k, u) :: rest, a, v =>
    if a < k then (a, v) :: (k, u) :: rest
    else if k = a then (a, v) :: rest
    else (k, u) :: Memory.insert rest a v

/-- List no cell for an address. -/
def Memory.erase : Memory → Nat → Memory
  | [], _ => []
  | (k, u) :: rest, a => if k = a then Memory.erase rest a else (k, u) :: Memory.erase rest a

/-- Every address listed lies above `low`, below 65536, and they rise strictly. -/
def Memory.risingFrom : Nat → Memory → Bool
  | _, [] => true
  | low, (k, _) :: rest => decide (low ≤ k) && decide (k < Config.cells) && Memory.risingFrom (k + 1) rest

/-- The canonical form of an instruction memory: strictly rising addresses of the address space. -/
def Memory.rising (m : Memory) : Bool := Memory.risingFrom 0 m

/-- The canonical form of a data memory: strictly rising addresses, and no entry equal to what an unlisted cell
reads as. -/
def Memory.wf (m : Memory) : Bool := m.rising && m.all fun e => decide (e.2 ≠ unlistedCell)

/-! ## Data memory (20_memory.md R46) -/

/-- `MemRead(a, 1)`: defined for every address, changes nothing. -/
def Memory.read (m : Memory) (a : Word) : Word := (m.find? a.toNat).getD unlistedCell

/-- `MemWrite(a, 1, v)`: defined for every address, changes no other cell. -/
def Memory.write (m : Memory) (a v : Word) : Memory :=
  if v = unlistedCell then m.erase a.toNat else m.insert a.toNat v

/-- The data cell at an address. -/
def State.readCell (s : State) (a : Word) : Word := s.dmem.read a

/-- Replace the data cell at an address. -/
def State.writeCell (s : State) (a v : Word) : State := { s with dmem := s.dmem.write a v }

/-! ## Instruction memory -/

/-- `IFetch(a)`: the instruction cell at an address, where the image gives it a value (20_memory.md R46;
10_state.md R33). -/
def State.fetchCell (s : State) (a : Word) : Option Word := s.imem.find? a.toNat

/-- Place a word in an instruction cell. The host's operation before a run (10_state.md R30;
70_reset_and_hazards.md R203): no instruction calls it. -/
def State.placeWord (s : State) (a w : Word) : State := { s with imem := s.imem.insert a.toNat w }

/-! ## Registers (10_state.md R21 to R23) -/

/-- `x[i]`: r0 reads as 0x0000 always. -/
def State.readReg (s : State) (r : Reg) : Word :=
  match r with
  | ⟨0, _⟩ => 0x0000#16
  | ⟨n + 1, h⟩ => s.x[n]'(by omega)

/-- `x[i] <- v`: a write to r0 is discarded (D19; log 13). -/
def State.writeReg (s : State) (r : Reg) (v : Word) : State :=
  match r with
  | ⟨0, _⟩ => s
  | ⟨n + 1, h⟩ => { s with x := s.x.set n v (by omega) }

/-! ## Program counter (10_state.md R26) -/

/-- `pc <- t`. -/
def State.setPc (s : State) (t : Word) : State := { s with pc := t }

/-- `pc <- pc + 1`, modulo 65536 (D5; log 12). -/
def State.advance (s : State) : State := s.setPc (s.pc + 1#16)

/-! ## Shapes that several instructions share -/

/-- `x[D] <- v; pc <- pc + 1`: the end of every register-writing instruction. -/
def writeBack (d : Reg) (v : Word) (s : State) : Answer := .next (s.writeReg d v).advance

/-- `x[D] <- MemRead(ea, 1); pc <- pc + 1` (43_memory_access.md R135). -/
def load (d : Reg) (ea : Word) (s : State) : Answer := writeBack d (s.readCell ea) s

/-- `MemWrite(ea, 1, x[D]); pc <- pc + 1` (R135). -/
def store (d : Reg) (ea : Word) (s : State) : Answer := .next (s.writeCell ea (s.readReg d)).advance

/-- `if condition_met then pc <- target else pc <- pc + 1` (10_state.md R26; 41_branches.md R111). -/
def branch (conditionMet : Bool) (target : Word) (s : State) : Answer :=
  .next (if conditionMet then s.setPc target else s.advance)

end Sys2Proof.Machine
end

