-- ==== Sys2Proof/Machine/Operands.lean ====
section
/-! DEFINITION. The operand forms: an immediate as a word, the two addressing modes and the branch target. -/

namespace Sys2Proof.Machine

/-- The 16-bit value of an immediate: never scaled or shifted (30_encoding.md R67). -/
def immWord (n : Int) : Word := BitVec.ofInt 16 n

/-- Register plus register, modulo 65536: `read` and `write` (43_memory_access.md R134; 20_memory.md R48). -/
def eaRegReg (s : State) (s1 s2 : Reg) : Word := s.readReg s1 + s.readReg s2

/-- Register plus immediate, modulo 65536: `readi` and `writei`. The base register is not updated (R134; C4). -/
def eaRegImm (s : State) (s1 : Reg) (n : Int) : Word := s.readReg s1 + immWord n

/-- The target of a taken branch, relative to the branch's own address (41_branches.md R111). -/
def branchTarget (s : State) (n : Int) : Word := s.pc + immWord n

end Sys2Proof.Machine
end

