-- ==== Sys2Proof/Machine/AddImmediate.lean ====
section
/-! DEFINITION. `+i` (42_add_immediate.md). -/

namespace Sys2Proof.Machine

/-- `+i`: `x[D] <- x[S1] + imm(I)` (R120). -/
def execAddi (d s1 : Reg) (n : Int) (s : State) : Answer := writeBack d (s.readReg s1 + immWord n) s

end Sys2Proof.Machine
end

