-- ==== Sys2Proof/Machine/AluRegister.lean ====
section
/-! DEFINITION. `not`, `+`, `-`, `or`, `and` (40_alu_register.md). Every result is 16 bits; nothing is recorded of a
carry, borrow or overflow (R105). -/

namespace Sys2Proof.Machine

/-- `not`: `x[D] <- ~(x[S1] + x[S2])`, which is `~x[S1]` in the documented form S2 = r0 (R100). The other form is
the datapath's reading (D8; log 6); under `NOT_S2_POLICY = refuse` the decoder has rejected it. -/
def execNot (d s1 s2 : Reg) (s : State) : Answer := writeBack d (~~~(s.readReg s1 + s.readReg s2)) s

/-- `+`: `x[D] <- x[S1] + x[S2]` (R101). -/
def execAdd (d s1 s2 : Reg) (s : State) : Answer := writeBack d (s.readReg s1 + s.readReg s2) s

/-- `-`: `x[D] <- x[S1] - x[S2]` (R102). -/
def execSub (d s1 s2 : Reg) (s : State) : Answer := writeBack d (s.readReg s1 - s.readReg s2) s

/-- `or`: `x[D] <- x[S1] | x[S2]`, bit by bit (R103). -/
def execOr (d s1 s2 : Reg) (s : State) : Answer := writeBack d (s.readReg s1 ||| s.readReg s2) s

/-- `and`: `x[D] <- x[S1] & x[S2]`, bit by bit (R104). -/
def execAnd (d s1 s2 : Reg) (s : State) : Answer := writeBack d (s.readReg s1 &&& s.readReg s2) s

end Sys2Proof.Machine
end

