-- ==== Sys2Proof/Machine/Flags.lean ====
section
/-! DEFINITION. The machine has no flags: nothing is stored and no instruction writes one (10_state.md R27). What
stands here is `condition_met`, a wire computed from two registers in the branch's own cycle
(41_branches.md R110). -/

namespace Sys2Proof.Machine

/-- `eq(a, b)`: the same 16 bits. -/
def condEq (a b : Word) : Bool := decide (a = b)

/-- `gt(a, b)` under the reading `CMP_SIGNED` (D6; log 5). -/
def condGt (m : CmpReading) (a b : Word) : Bool :=
  match m with
  | .signed   => decide (a.toInt > b.toInt)
  | .unsigned => decide (a.toNat > b.toNat)

/-- `ge(a, b)` under the reading `CMP_SIGNED` (D6; log 5). -/
def condGe (m : CmpReading) (a b : Word) : Bool :=
  match m with
  | .signed   => decide (a.toInt ≥ b.toInt)
  | .unsigned => decide (a.toNat ≥ b.toNat)

end Sys2Proof.Machine
end

