-- ==== Sys2Proof/Machine/Branches.lean ====
section
/-! DEFINITION. `=`, `>`, `>=` (41_branches.md). They write no register and touch no memory; no other instruction
transfers control (R115). -/

namespace Sys2Proof.Machine

/-- `=`: branch if `x[S1]` and `x[S2]` are equal (R112). -/
def execBeq (n : Int) (s1 s2 : Reg) (s : State) : Answer :=
  branch (condEq (s.readReg s1) (s.readReg s2)) (branchTarget s n) s

/-- `>`: branch if `x[S1] > x[S2]` (R113). -/
def execBgt (n : Int) (s1 s2 : Reg) (s : State) : Answer :=
  branch (condGt s.params.cmp (s.readReg s1) (s.readReg s2)) (branchTarget s n) s

/-- `>=`: branch if `x[S1] >= x[S2]` (R114). -/
def execBge (n : Int) (s1 s2 : Reg) (s : State) : Answer :=
  branch (condGe s.params.cmp (s.readReg s1) (s.readReg s2)) (branchTarget s n) s

end Sys2Proof.Machine
end

