-- ==== Sys2Proof/Machine/MemoryAccess.lean ====
section
/-! DEFINITION. `read`, `write`, `readi`, `writei` (43_memory_access.md). Every address is valid (20_memory.md R42). -/

namespace Sys2Proof.Machine

/-- `read`: `x[D] <- M[x[S1] + x[S2]]` (R130). -/
def execRead (d s1 s2 : Reg) (s : State) : Answer := load d (eaRegReg s s1 s2) s

/-- `write`: `M[x[S1] + x[S2]] <- x[D]` (R131). -/
def execWrite (d s1 s2 : Reg) (s : State) : Answer := store d (eaRegReg s s1 s2) s

/-- `readi`: `x[D] <- M[x[S1] + imm(I)]` (R132). -/
def execReadi (d s1 : Reg) (n : Int) (s : State) : Answer := load d (eaRegImm s s1 n) s

/-- `writei`: `M[x[S1] + imm(I)] <- x[D]` (R133). -/
def execWritei (d s1 : Reg) (n : Int) (s : State) : Answer := store d (eaRegImm s s1 n) s

end Sys2Proof.Machine
end

