-- ==== Sys2Proof/Syntax.lean ====
section
/-! DEFINITION. The 13 instructions, one constructor per row of spec/opcode_table.json (30_encoding.md R70), and
the five pseudo-instructions (44_pseudoinstructions.md R140 to R145).

Operands stand in the order of the fields i1, i2, i3, which is the order of the assembly text (R80). An immediate
is held as the NUMBER it stands for, -7 to 7, and not as its bit pattern, so that `IMM_DECODE` lives in the
decoder alone (log 18). -/

namespace Sys2Proof

/-- An instruction of the monociclo ISA. -/
inductive Instr where
  /-- `not D S1 r0`; the undocumented form has another third operand (R100). -/
  | not    (d s1 s2 : Reg)
  /-- `+ D S1 S2` (R101). -/
  | add    (d s1 s2 : Reg)
  /-- `- D S1 S2` (R102). -/
  | sub    (d s1 s2 : Reg)
  /-- `or D S1 S2` (R103). -/
  | or     (d s1 s2 : Reg)
  /-- `and D S1 S2` (R104). -/
  | and    (d s1 s2 : Reg)
  /-- `= I S1 S2` (R112). -/
  | beq    (imm : Int) (s1 s2 : Reg)
  /-- `> I S1 S2` (R113). -/
  | bgt    (imm : Int) (s1 s2 : Reg)
  /-- `>= I S1 S2` (R114). -/
  | bge    (imm : Int) (s1 s2 : Reg)
  /-- `+i D S1 I` (R120). -/
  | addi   (d s1 : Reg) (imm : Int)
  /-- `read D S1 S2` (R130). -/
  | read   (d s1 s2 : Reg)
  /-- `write D S1 S2`; D is read (R131). -/
  | write  (d s1 s2 : Reg)
  /-- `readi D S1 I` (R132). -/
  | readi  (d s1 : Reg) (imm : Int)
  /-- `writei D S1 I`; D is read (R133). -/
  | writei (d s1 : Reg) (imm : Int)
  deriving DecidableEq, Repr

/-- A pseudo-instruction: a spelling that the translator replaces by one real instruction. The list is closed
(44_pseudoinstructions.md R145). -/
inductive Pseudo where
  /-- `not S1` (R140). -/
  | notSelf (r : Reg)
  /-- `idle` (R141). -/
  | idle
  /-- `++ S1` (R142). -/
  | inc (r : Reg)
  /-- `-- S1` (R143). -/
  | dec (r : Reg)
  /-- `move S1 S2`: the first operand is the destination (R144). -/
  | move (a b : Reg)
  deriving DecidableEq, Repr

end Sys2Proof
end

