-- ==== Sys2Proof/Machine/Dispatch.lean ====
section
/-! DEFINITION. One arm per instruction, each one direct call of its meaning. -/

namespace Sys2Proof.Machine

/-- The meaning of every instruction. -/
def exec (i : Instr) (s : State) : Host.Outcome State Fault Refusal :=
  match i with
  -- register-to-register ALU instructions (40_alu_register.md)
  | .not d s1 s2 => Sys2Proof.Machine.execNot d s1 s2 s
  | .add d s1 s2 => Sys2Proof.Machine.execAdd d s1 s2 s
  | .sub d s1 s2 => Sys2Proof.Machine.execSub d s1 s2 s
  | .or d s1 s2 => Sys2Proof.Machine.execOr d s1 s2 s
  | .and d s1 s2 => Sys2Proof.Machine.execAnd d s1 s2 s
  -- conditional branches (41_branches.md)
  | .beq n s1 s2 => Sys2Proof.Machine.execBeq n s1 s2 s
  | .bgt n s1 s2 => Sys2Proof.Machine.execBgt n s1 s2 s
  | .bge n s1 s2 => Sys2Proof.Machine.execBge n s1 s2 s
  -- add immediate (42_add_immediate.md)
  | .addi d s1 n => Sys2Proof.Machine.execAddi d s1 n s
  -- loads and stores (43_memory_access.md)
  | .read d s1 s2 => Sys2Proof.Machine.execRead d s1 s2 s
  | .write d s1 s2 => Sys2Proof.Machine.execWrite d s1 s2 s
  | .readi d s1 n => Sys2Proof.Machine.execReadi d s1 n s
  | .writei d s1 n => Sys2Proof.Machine.execWritei d s1 n s

end Sys2Proof.Machine
end

