-- ==== Sys2Proof/WellFormed.lean ====
section
/-! DEFINITION. Which instruction terms stand for an instruction of the machine, given the parameters of the run:
an immediate lies in -7 to 7 (30_encoding.md R66), and `not` names r0 as its third operand unless
`NOT_S2_POLICY` is `datapath` (40_alu_register.md R100). Every register operand is legal (10_state.md R23). -/

namespace Sys2Proof

/-- "I ∈ [-7, 7]" (30_encoding.md R66). -/
def immInRange (n : Int) : Bool := decide (-7 ≤ n) && decide (n ≤ 7)

/-- The third operand of `not` that the run admits (40_alu_register.md R100; 30_encoding.md R72 b). -/
def notFormAdmitted (p : Params) (s2 : Reg) : Bool := decide (p.notS2 = .datapath) || decide (s2 = 0)

/-- The instruction is one that a word of the machine can stand for. -/
def Instr.wellFormed (p : Params) : Instr → Bool
  | .not _ _ s2 => notFormAdmitted p s2
  | .add _ _ _ => true
  | .sub _ _ _ => true
  | .or _ _ _ => true
  | .and _ _ _ => true
  | .beq n _ _ => immInRange n
  | .bgt n _ _ => immInRange n
  | .bge n _ _ => immInRange n
  | .addi _ _ n => immInRange n
  | .read _ _ _ => true
  | .write _ _ _ => true
  | .readi _ _ n => immInRange n
  | .writei _ _ n => immInRange n

end Sys2Proof
end

