-- ==== Sys2Proof/Decode.lean ====
section
/-! DEFINITION. From a 16-bit word to an instruction or a rejection by name (30_encoding.md R60 to R73), and the
encoder back. The decoder works on the number a cell holds: a cell has no byte order (20_memory.md R43; log 16). -/

namespace Sys2Proof

/-! ## Fields (30_encoding.md R60) -/

/-- i0, bits 15 to 12: the opcode. -/
def field0 (w : Word) : Nibble := w.extractLsb' 12 4
/-- i1, bits 11 to 8. -/
def field1 (w : Word) : Nibble := w.extractLsb' 8 4
/-- i2, bits 7 to 4: always the register S1. -/
def field2 (w : Word) : Nibble := w.extractLsb' 4 4
/-- i3, bits 3 to 0. -/
def field3 (w : Word) : Nibble := w.extractLsb' 0 4

/-- The register numbered by a field; the code of `rN` is N (10_state.md R22). -/
def regOf (f : Nibble) : Reg := f.toFin

/-- The word of four fields: `i0 ++ i1 ++ i2 ++ i3` (R65). -/
def assemble (i0 i1 i2 i3 : Nibble) : Word := i0 ++ i1 ++ i2 ++ i3

/-! ## Immediates (30_encoding.md R66, R67) -/

/-- `IMM_DECODE`: the number an immediate field stands for; `none` is the reserved pattern 1000 of the
two's-complement reading (R66; logs 3 and 4). The same function serves i1 and i3 (R67; log 17). -/
def immediate (m : ImmDecode) (f : Nibble) : Option Int :=
  match m with
  | .twosComplement => if f = 0b1000#4 then none else some f.toInt
  | .signMagnitude  =>
    some (if f.msb then -((f &&& 0b0111#4).toNat : Int) else (f.toNat : Int))

/-- The field that stands for a number from -7 to 7 under each reading (R66). -/
def immField (m : ImmDecode) (n : Int) : Nibble :=
  match m with
  | .twosComplement => BitVec.ofInt 4 n
  | .signMagnitude  => if n < 0 then 0b1000#4 ||| BitVec.ofNat 4 n.natAbs else BitVec.ofNat 4 n.natAbs

/-! ## Decoding -/

/-- Why a word is no instruction (30_encoding.md R68, R71, R72; 60_exceptions.md R182). -/
inductive DecodeError where
  /-- The opcode is 1101, 1110 or 1111 (R71). -/
  | illegalOpcode
  /-- An immediate field that `IMM_DECODE` gives no value (R72 a). -/
  | reservedImmediate
  /-- `not` with a third operand other than r0, under `NOT_S2_POLICY = refuse` (R72 b). -/
  | undocumentedForm
  deriving DecidableEq, Repr

/-- Complete an instruction with the immediate of field `f`, or reject a reserved one (R68, R72 a). -/
def withImmediate (p : Params) (f : Nibble) (make : Int → Instr) : Except DecodeError Instr :=
  match immediate p.immDecode f with
  | some n => .ok (make n)
  | none   => .error .reservedImmediate

/-- `not D S1 S2` where the run admits its third operand (R72 b). -/
def decodeNot (p : Params) (d s1 s2 : Reg) : Except DecodeError Instr :=
  if notFormAdmitted p s2 then .ok (.not d s1 s2) else .error .undocumentedForm

/-- The decode procedure of 30_encoding.md R68: i0 alone selects the instruction (R70). -/
def decode (p : Params) (w : Word) : Except DecodeError Instr :=
  let r1 := regOf (field1 w)
  let r2 := regOf (field2 w)
  let r3 := regOf (field3 w)
  match (field0 w).toNat with
  | 0  => decodeNot p r1 r2 r3
  | 1  => .ok (.add r1 r2 r3)
  | 2  => .ok (.sub r1 r2 r3)
  | 3  => .ok (.or r1 r2 r3)
  | 4  => .ok (.and r1 r2 r3)
  | 5  => withImmediate p (field1 w) fun n => .beq n r2 r3
  | 6  => withImmediate p (field1 w) fun n => .bgt n r2 r3
  | 7  => withImmediate p (field1 w) fun n => .bge n r2 r3
  | 8  => withImmediate p (field3 w) fun n => .addi r1 r2 n
  | 9  => .ok (.read r1 r2 r3)
  | 10 => .ok (.write r1 r2 r3)
  | 11 => withImmediate p (field3 w) fun n => .readi r1 r2 n
  | 12 => withImmediate p (field3 w) fun n => .writei r1 r2 n
  | _  => .error .illegalOpcode

/-! ## Encoding -/

/-- The field that names a register (10_state.md R22). -/
def regField (r : Reg) : Nibble := BitVec.ofFin r

/-- The opcode map (30_encoding.md R70). -/
def Instr.opcode : Instr → Nibble
  | .not _ _ _    => 0b0000#4
  | .add _ _ _    => 0b0001#4
  | .sub _ _ _    => 0b0010#4
  | .or _ _ _     => 0b0011#4
  | .and _ _ _    => 0b0100#4
  | .beq _ _ _    => 0b0101#4
  | .bgt _ _ _    => 0b0110#4
  | .bge _ _ _    => 0b0111#4
  | .addi _ _ _   => 0b1000#4
  | .read _ _ _   => 0b1001#4
  | .write _ _ _  => 0b1010#4
  | .readi _ _ _  => 0b1011#4
  | .writei _ _ _ => 0b1100#4

/-- Format R: `opcode D S1 S2` (R61). -/
def formatR (op : Nibble) (d s1 s2 : Reg) : Word := assemble op (regField d) (regField s1) (regField s2)
/-- Format I: `opcode D S1 I` (R62). -/
def formatI (p : Params) (op : Nibble) (d s1 : Reg) (n : Int) : Word :=
  assemble op (regField d) (regField s1) (immField p.immDecode n)
/-- Format J: `opcode I S1 S2` (R63). -/
def formatJ (p : Params) (op : Nibble) (n : Int) (s1 s2 : Reg) : Word :=
  assemble op (immField p.immDecode n) (regField s1) (regField s2)

/-- The word of a well-formed instruction (30_encoding.md R61 to R65, R70). -/
def encode (p : Params) (i : Instr) : Word :=
  match i with
  | .not d s1 s2   => formatR i.opcode d s1 s2
  | .add d s1 s2   => formatR i.opcode d s1 s2
  | .sub d s1 s2   => formatR i.opcode d s1 s2
  | .or d s1 s2    => formatR i.opcode d s1 s2
  | .and d s1 s2   => formatR i.opcode d s1 s2
  | .beq n s1 s2   => formatJ p i.opcode n s1 s2
  | .bgt n s1 s2   => formatJ p i.opcode n s1 s2
  | .bge n s1 s2   => formatJ p i.opcode n s1 s2
  | .addi d s1 n   => formatI p i.opcode d s1 n
  | .read d s1 s2  => formatR i.opcode d s1 s2
  | .write d s1 s2 => formatR i.opcode d s1 s2
  | .readi d s1 n  => formatI p i.opcode d s1 n
  | .writei d s1 n => formatI p i.opcode d s1 n

/-! ## The opcode table's numbering -/

/-- The 16-bit word whose low `nbits` bits are those of `w`, the rest 0. An instruction is one cell (R73), so the
table's bit numbers are the cell's own. -/
def tableWord (nbits w : Nat) : Word := BitVec.ofNat 16 (w % 2 ^ nbits)

/-- The instruction the decoder reads from a row's word, under the parameters with which a run starts. -/
def decodeTableWord (nbits w : Nat) : Option Instr := (decode Machine.initialParams (tableWord nbits w)).toOption

end Sys2Proof
end

