-- ==== Sys2Proof/Machine/Fetch.lean ====
section
/-! DEFINITION. Fetching and decoding the instruction at the pc, with the model faults in the spec's order
(60_exceptions.md R182, R184). -/

namespace Sys2Proof.Machine

/-- The model fault of a rejected word, with the information R182 says is recorded. -/
def faultOf (pc w : Word) : DecodeError → Fault
  | .illegalOpcode     => .illegalOpcode pc w
  | .reservedImmediate => .reservedImmediate pc w
  | .undocumentedForm  => .undocumentedForm pc w

/-- The numbers that 60_exceptions.md R182 gives the faults. Number 4, UnwrittenRegister, belongs to a model whose
registers have no value at reset (log 8). -/
def Fault.number : Fault → Nat
  | .illegalOpcode _ _     => 1
  | .reservedImmediate _ _ => 2
  | .undocumentedForm _ _  => 3
  | .noInstruction _       => 5

/-- `w <- IFetch(pc)`; decode `w` (00_scope.md R14). -/
def fetchDecode (s : State) : Except Fault Instr :=
  match s.fetchCell s.pc with
  | none => .error (.noInstruction s.pc)
  | some w =>
    match decode s.params w with
    | .ok i => .ok i
    | .error e => .error (faultOf s.pc w e)

end Sys2Proof.Machine
end

