-- ==== Sys2Proof/Machine/Step.lean ====
section
/-! DEFINITION. One step is one instruction (00_scope.md R14). -/

namespace Sys2Proof.Machine

/-- Fetch and decode the cell at the pc and run the instruction, or stop with the model fault. -/
def step (s : State) : Host.Outcome State Fault Refusal :=
  match fetchDecode s with
  | .ok i => exec i s
  | .error f => .fault f

/-- The table's word stored where `step` fetches next, the cell at the pc. It stands for the host's load of a program
(70_reset_and_hazards.md R203; log 10). -/
def State.withFetchWord (s : State) (nbits w : Nat) : State := s.placeWord s.pc (tableWord nbits w)

end Sys2Proof.Machine
end

