-- ==== Sys2Proof/Machine/Pseudo.lean ====
section
/-! DEFINITION. The pseudo-instructions' expansions, and the words a disassembler may show by a short spelling
(44_pseudoinstructions.md). The hardware never sees a pseudo-instruction. -/

namespace Sys2Proof.Machine

/-- The one real instruction a pseudo-instruction stands for (R140 to R144; C2 and C9 of 90_conflicts.md). -/
def expand : Pseudo → Instr
  | .notSelf r => .not r r 0
  | .idle      => .not 0 0 0
  | .inc r     => .addi r r 1
  | .dec r     => .addi r r (-1)
  | .move a b  => .add a b 0

/-- The short spelling of an instruction that has one, under the conditions of R145. -/
def shortSpelling : Instr → Option Pseudo
  | .not d s1 s2 => if d = s1 ∧ s2 = 0 then some (if d = 0 then .idle else .notSelf d) else none
  | .addi d s1 n => if d = s1 ∧ n = 1 then some (.inc d) else if d = s1 ∧ n = -1 then some (.dec d) else none
  | .add d s1 s2 => if s2 = 0 then some (.move d s1) else none
  | .sub _ _ _ => none
  | .or _ _ _ => none
  | .and _ _ _ => none
  | .beq _ _ _ => none
  | .bgt _ _ _ => none
  | .bge _ _ _ => none
  | .read _ _ _ => none
  | .write _ _ _ => none
  | .readi _ _ _ => none
  | .writei _ _ _ => none

end Sys2Proof.Machine
end

