-- ==== Sys2Proof/Machine/Assembler.lean ====
section
/-! DEFINITION. The assembly language and the words a program translates to (30_encoding.md R80 to R87; the command that
does so stands in Machine/Translator.lean). Only what the source
shows is admitted and everything else is refused (92_eei_decisions.md D21; 93_implementation_defined.md U15; log 21).
The translator's output is modelled as its words; the text layout of its file, `HEX_FORMAT`, is in no source (R87,
D16). -/

namespace Sys2Proof.Machine

/-- A line, or a token of one, as characters. -/
abbrev Text := List Char

/-! ## Spelling of operands and mnemonics -/

/-- A decimal digit. -/
def digitChar (n : Nat) : Char := Char.ofNat (48 + n)

/-- `r0` to `r15` (R81). -/
def regText (r : Reg) : Text :=
  if r.val < 10 then ['r', digitChar r.val] else ['r', '1', digitChar (r.val - 10)]

/-- A sign followed by one digit (R82). -/
def immText (n : Int) : Text := [if n < 0 then '-' else '+', digitChar n.natAbs]

/-- The register a token spells, if it spells one. -/
def parseReg (t : Text) : Option Reg := (List.finRange 16).find? fun r => decide (regText r = t)

/-- The number of a digit 0 to 7. -/
def parseDigit (c : Char) : Option Nat := (List.range 8).find? fun n => decide (digitChar n = c)

/-- `+n` or `-n` for n from 0 to 7, and nothing else (R82, D21). -/
def parseImm : Text → Option Int
  | ['+', c] => (parseDigit c).map fun (k : Nat) => (k : Int)
  | ['-', c] => (parseDigit c).map fun (k : Nat) => -(k : Int)
  | _ => none

/-- The mnemonics of the 13 real instructions (R85). -/
def mnemonicText : Instr → Text
  | .not _ _ _    => ['n', 'o', 't']
  | .add _ _ _    => ['+']
  | .sub _ _ _    => ['-']
  | .or _ _ _     => ['o', 'r']
  | .and _ _ _    => ['a', 'n', 'd']
  | .beq _ _ _    => ['=']
  | .bgt _ _ _    => ['>']
  | .bge _ _ _    => ['>', '=']
  | .addi _ _ _   => ['+', 'i']
  | .read _ _ _   => ['r', 'e', 'a', 'd']
  | .write _ _ _  => ['w', 'r', 'i', 't', 'e']
  | .readi _ _ _  => ['r', 'e', 'a', 'd', 'i']
  | .writei _ _ _ => ['w', 'r', 'i', 't', 'e', 'i']

/-! ## Parsing a line -/

/-- Format R operands `D S1 S2` (R80). -/
def parseR (make : Reg → Reg → Reg → Instr) (a b c : Text) : Option Instr :=
  (parseReg a).bind fun d => (parseReg b).bind fun s1 => (parseReg c).map fun s2 => make d s1 s2

/-- Format I operands `D S1 I` (R80). -/
def parseI (make : Reg → Reg → Int → Instr) (a b c : Text) : Option Instr :=
  (parseReg a).bind fun d => (parseReg b).bind fun s1 => (parseImm c).map fun n => make d s1 n

/-- Format J operands `I S1 S2` (R80). -/
def parseJ (make : Int → Reg → Reg → Instr) (a b c : Text) : Option Instr :=
  (parseImm a).bind fun n => (parseReg b).bind fun s1 => (parseReg c).map fun s2 => make n s1 s2

/-- `not D S1 r0`: the syntax fixes the third operand (R85; R72 b). -/
def parseNot (a b c : Text) : Option Instr := if c = regText 0 then parseR .not a b c else none

/-- The 13 mnemonics, each with the reading of its three operands (R85). -/
def realForms : List (Text × (Text → Text → Text → Option Instr)) :=
  [(['n', 'o', 't'], parseNot),
   (['+'], parseR .add),
   (['-'], parseR .sub),
   (['o', 'r'], parseR .or),
   (['a', 'n', 'd'], parseR .and),
   (['='], parseJ .beq),
   (['>'], parseJ .bgt),
   (['>', '='], parseJ .bge),
   (['+', 'i'], parseI .addi),
   (['r', 'e', 'a', 'd'], parseR .read),
   (['w', 'r', 'i', 't', 'e'], parseR .write),
   (['r', 'e', 'a', 'd', 'i'], parseI .readi),
   (['w', 'r', 'i', 't', 'e', 'i'], parseI .writei)]

/-- A real instruction: a mnemonic and three operands (R80, R85). -/
def parseReal (m a b c : Text) : Option Instr :=
  (realForms.find? fun f => decide (f.1 = m)).bind fun f => f.2 a b c

/-- A pseudo-instruction with one operand (44_pseudoinstructions.md R140, R142, R143). -/
def parsePseudo1 (m a : Text) : Option Pseudo :=
  if m = ['n', 'o', 't'] then (parseReg a).map .notSelf
  else if m = ['+', '+'] then (parseReg a).map .inc
  else if m = ['-', '-'] then (parseReg a).map .dec
  else none

/-- `move S1 S2` (44_pseudoinstructions.md R144). -/
def parseMove (m a b : Text) : Option Pseudo :=
  if m = ['m', 'o', 'v', 'e'] then (parseReg a).bind fun x => (parseReg b).map fun y => .move x y else none

/-- What a source line is. -/
inductive Line where
  /-- A blank or comment line: it stands at no instruction address (R80, R83). -/
  | empty
  /-- One instruction, a pseudo-instruction already expanded (44_pseudoinstructions.md). -/
  | code (i : Instr)
  deriving DecidableEq, Repr

/-- The tokens of a line: they are separated by one space (R80). -/
def tokens : Text → List Text
  | [] => [[]]
  | c :: rest =>
    if c = ' ' then [] :: tokens rest
    else
      match tokens rest with
      | t :: ts => (c :: t) :: ts
      | [] => [[c]]

/-- The line before its comment, which runs from `#` to the end of the line (R83). DEDUCED: the one space that separates
an instruction from its comment goes with the comment. DESIGN CHOICE: so does one space at the start of a line, so that
one space and a comment are a comment line, and no space is needed before `#`; a line of one space alone, and two spaces
before `#`, are refused. The source shows none of the four (N11; log 21). -/
def stripComment : Text → Text
  | [] => []
  | c :: rest =>
    if c = '#' then []
    else if c = ' ' ∧ rest.head? = some '#' then []
    else c :: stripComment rest

/-- The instruction that a line's tokens spell (R80, R85). -/
def parseTokens : List Text → Option Instr
  | [m] => if m = ['i', 'd', 'l', 'e'] then some (expand .idle) else none
  | [m, a] => (parsePseudo1 m a).map expand
  | [m, a, b] => (parseMove m a b).map expand
  | [m, a, b, c] => parseReal m a b c
  | _ => none

/-- One source line; `none` where the model of the translator refuses it (D21; U15). -/
def parseLine (line : Text) : Option Line :=
  let code := stripComment line
  if code = [] then some .empty else (parseTokens (tokens code)).map .code

/-! ## Translating a program -/

/-- The instructions of a program, in order, comment and blank lines not counted; one refused line refuses the
program (R80, D11). -/
def parseProgram : List Text → Option (List Instr)
  | [] => some []
  | line :: rest =>
    (parseLine line).bind fun l =>
    (parseProgram rest).map fun is =>
    match l with
    | .empty => is
    | .code i => i :: is

/-- The content of the translator's output: the instruction words in order, the first at instruction address 0x0000
(R87). -/
def translateProgram (p : Params) (lines : List Text) : Option (List Word) := (parseProgram lines).map (List.map (encode p))

/-! ## Spelling an instruction -/

/-- The line of a real instruction in the documented syntax (R80, R85). -/
def lineText (i : Instr) : Text :=
  let line3 := fun (a b c : Text) => mnemonicText i ++ ' ' :: a ++ ' ' :: b ++ ' ' :: c
  match i with
  | .not d s1 s2   => line3 (regText d) (regText s1) (regText s2)
  | .add d s1 s2   => line3 (regText d) (regText s1) (regText s2)
  | .sub d s1 s2   => line3 (regText d) (regText s1) (regText s2)
  | .or d s1 s2    => line3 (regText d) (regText s1) (regText s2)
  | .and d s1 s2   => line3 (regText d) (regText s1) (regText s2)
  | .beq n s1 s2   => line3 (immText n) (regText s1) (regText s2)
  | .bgt n s1 s2   => line3 (immText n) (regText s1) (regText s2)
  | .bge n s1 s2   => line3 (immText n) (regText s1) (regText s2)
  | .addi d s1 n   => line3 (regText d) (regText s1) (immText n)
  | .read d s1 s2  => line3 (regText d) (regText s1) (regText s2)
  | .write d s1 s2 => line3 (regText d) (regText s1) (regText s2)
  | .readi d s1 n  => line3 (regText d) (regText s1) (immText n)
  | .writei d s1 n => line3 (regText d) (regText s1) (immText n)

/-- The line of a pseudo-instruction (44_pseudoinstructions.md R140 to R144). -/
def pseudoText : Pseudo → Text
  | .notSelf r => ['n', 'o', 't', ' '] ++ regText r
  | .idle      => ['i', 'd', 'l', 'e']
  | .inc r     => ['+', '+', ' '] ++ regText r
  | .dec r     => ['-', '-', ' '] ++ regText r
  | .move a b  => ['m', 'o', 'v', 'e', ' '] ++ regText a ++ ' ' :: regText b

end Sys2Proof.Machine
end

