-- ==== Sys2Proof/Machine/Load.lean ====
section
/-! DEFINITION. What the host does before a run (70_reset_and_hazards.md R203, R206): it loads the image and may place
initial data. No step does either. -/

namespace Sys2Proof.Machine

/-- The image's words at consecutive addresses from `a`. -/
def imageFrom : Nat → List Word → Memory
  | _, [] => []
  | a, w :: ws => (a, w) :: imageFrom (a + 1) ws

/-- Load an image: its word `k` at instruction address `k`, every other cell with no value (D11). An image longer than
the memory is not loaded (log 22). -/
def State.loadImage (s : State) (image : List Word) : Option State :=
  if image.length ≤ Config.cells then some { s with imem := imageFrom 0 image } else none

/-- Place initial data: the listed words from data address `a` on, modulo 65536 (R203, point 3). -/
def State.placeData (s : State) : Word → List Word → State
  | _, [] => s
  | a, v :: vs => (s.writeCell a v).placeData (a + 1#16) vs

/-- A machine ready to run: the given parameters, register and data-memory start values, pc at `RESET_PC`, the image
loaded (R203, R204). `REG_RESET` and `DMEM_INIT` are arguments here, as the spec leaves them. -/
def boot (p : Params) (regs : Vector Word 15) (data : Memory) (image : List Word) : Option State :=
  { x := regs, pc := resetPc, dmem := data, imem := [], params := p : State }.loadImage image

end Sys2Proof.Machine
end

