-- ==== Sys2Proof/Machine/Translator.lean ====
section
/-! DEFINITION. The translator as a command on the host's files (30_encoding.md R86, R87): it reads the program that
`fuente` names and saves the image in the file that `salida` names. No step of the machine calls it; `boot` loads an
image it has saved (70_reset_and_hazards.md R203). -/

namespace Sys2Proof.Machine

/-! ## The host's files -/

/-- What a file holds, as far as the translator and the load are concerned. -/
inductive FileContent where
  /-- A text file with a program, line by line (R80). -/
  | program (lines : List Text)
  /-- The translator's hexadecimal text: the words it stands for, its layout being in no source (R87, D16; log 25). -/
  | image (words : List Word)
  deriving DecidableEq, Repr

/-- The host's files by path and name, each listed once or found at its first entry. DESIGN CHOICE: two spellings of one
path are two names (log 27). -/
abbrev Files := List (Text × FileContent)

/-- The file of a name, if there is one. -/
def Files.find? : Files → Text → Option FileContent
  | [], _ => none
  | (n, c) :: rest, name => if n = name then some c else Files.find? rest name

/-- Create the file of a name. DEDUCED: a file that had the name is replaced (log 27). -/
def Files.save : Files → Text → FileContent → Files
  | [], name, c => [(name, c)]
  | (n, d) :: rest, name, c => if n = name then (name, c) :: rest else (n, d) :: Files.save rest name c

/-- The program in the file of a name. -/
def Files.program? (files : Files) (name : Text) : Option (List Text) :=
  match files.find? name with
  | some (.program lines) => some lines
  | some (.image _) => none
  | none => none

/-- The image in the file of a name. -/
def Files.image? (files : Files) (name : Text) : Option (List Word) :=
  match files.find? name with
  | some (.image words) => some words
  | some (.program _) => none
  | none => none

/-! ## The command line -/

/-- `monociclo <fuente> [salida]` (R86). -/
structure CommandLine where
  source : Text
  output : Option Text
  deriving DecidableEq, Repr

/-- The translator's arguments: one or two (R86). -/
def parseArguments : List Text → Option CommandLine
  | [f] => some { source := f, output := none }
  | [f, o] => some { source := f, output := some o }
  | _ => none

/-- The file that the command creates: `salida`, or the name the translator gives where it is omitted. That name is not
stated, so it is a free value (R86; log 27). -/
def CommandLine.outputName (c : CommandLine) : Text := c.output.getD (Config.omittedOutput c.source)

/-! ## The command -/

/-- "Traduce el programa ... a texto hexadecimal y lo guarda en" the output (R86): the program is read, translated whole
and then saved. `none`, nothing saved, where there is no such program or the model of the translator refuses one of its
lines (U15; logs 21 and 27). -/
def CommandLine.run (p : Params) (c : CommandLine) (files : Files) : Option Files :=
  (files.program? c.source).bind fun lines =>
  (translateProgram p lines).map fun words =>
  files.save c.outputName (.image words)

/-- The name of the translator's program (R86). -/
def translatorName : Text := ['m', 'o', 'n', 'o', 'c', 'i', 'c', 'l', 'o']

/-- The command as the words of a command line, `monociclo` first (R86); `none` for any other command. -/
def runCommand (p : Params) (words : List Text) (files : Files) : Option Files :=
  match words with
  | [] => none
  | program :: arguments =>
    if program = translatorName then (parseArguments arguments).bind fun c => c.run p files else none

/-- Load the image that a command has saved, and start (70_reset_and_hazards.md R203, points 1 to 4). -/
def bootFile (p : Params) (regs : Vector Word 15) (data : Memory) (files : Files) (name : Text) : Option State :=
  (files.image? name).bind fun words => boot p regs data words

end Sys2Proof.Machine
end

