-- ==== Sys2Proof/Machine/Datapath.lean ====
section
/-! DEFINITION. The second description the spec gives of every instruction: the control signals of its opcode and
the flow of one cycle through the seven components (45_datapath_control.md). It takes no part in `step`; it is here
so that the meanings can be held against it. -/

namespace Sys2Proof.Machine

/-- The decoder's outputs, each one bit (R161, R151). -/
structure Signals where
  aluImmediate        : Bool
  registerWriteEnable : Bool
  memoryWriteEnable   : Bool
  memoryReadEnable    : Bool
  jumpEnable          : Bool
  negateOutput        : Bool
  deriving DecidableEq, Repr

/-- The ALU's four operations: 00, 01, 10, 11 (R152). -/
inductive AluOp where
  | add
  | sub
  | or
  | and
  deriving DecidableEq, Repr

/-- A row of the control-signal table without its "Operación ALU" column; its arguments stand in the table's column
order: ALU immediate, register write, memory write, memory read, jump, negate. -/
def signalRow (imm reg wr rd jump neg : Bool) : Signals where
  aluImmediate := imm
  registerWriteEnable := reg
  memoryWriteEnable := wr
  memoryReadEnable := rd
  jumpEnable := jump
  negateOutput := neg

/-- The decoder: a pure function of the opcode (R161), row by row the table of R150. Opcodes 1101 to 1111 have no
row. -/
def decoder (i0 : Nibble) : Option Signals :=
  match i0.toNat with
  | 0  => some (signalRow false true  false false false true)
  | 1  => some (signalRow false true  false false false false)
  | 2  => some (signalRow false true  false false false false)
  | 3  => some (signalRow false true  false false false false)
  | 4  => some (signalRow false true  false false false false)
  | 5  => some (signalRow false false false false true  false)
  | 6  => some (signalRow false false false false true  false)
  | 7  => some (signalRow false false false false true  false)
  | 8  => some (signalRow true  true  false false false false)
  | 9  => some (signalRow false true  false true  false false)
  | 10 => some (signalRow false false true  false false false)
  | 11 => some (signalRow true  true  false true  false false)
  | 12 => some (signalRow true  false true  false false false)
  | _  => none

/-- The "Operación ALU" column, which the ALU derives from the opcode (R152; C6). The branches' `X` is no operation:
nothing uses their result (U1; log 26). -/
def aluOperation (i0 : Nibble) : Option AluOp :=
  match i0.toNat with
  | 0  => some .add
  | 1  => some .add
  | 2  => some .sub
  | 3  => some .or
  | 4  => some .and
  | 8  => some .add
  | 9  => some .add
  | 10 => some .add
  | 11 => some .add
  | 12 => some .add
  | _  => none

/-- One ALU operation (R170). -/
def AluOp.apply (op : AluOp) (a b : Word) : Word :=
  match op with
  | .add => a + b
  | .sub => a - b
  | .or  => a ||| b
  | .and => a &&& b

/-- The ALU's `result` output (R170); `none` for the branches. -/
def aluResult (i0 : Nibble) (negate : Bool) (a b : Word) : Option Word :=
  (aluOperation i0).map fun op => if negate then ~~~(op.apply a b) else op.apply a b

/-- The ALU's `condition_met` output (R170). For an opcode that is no branch it is not stated and not used (U14):
`jump_enable` is 0 there. -/
def aluCondition (m : CmpReading) (i0 : Nibble) (a b : Word) : Option Bool :=
  match i0.toNat with
  | 5 => some (condEq a b)
  | 6 => some (condGt m a b)
  | 7 => some (condGe m a b)
  | _ => none

/-- The ALU's second operand: the register of i3, or i3 itself as an immediate (R170). -/
def aluOperand2 (s : State) (sig : Signals) (w : Word) : Option Word :=
  if sig.aluImmediate then (immediate s.params.immDecode (field3 w)).map immWord
  else some (s.readReg (regOf (field3 w)))

/-- The data memory's `data` output: the cell addressed by the ALU's result, or, when it is not read, the address
itself (R159, R160). -/
def dataOut (s : State) (sig : Signals) (result : Option Word) : Option Word :=
  if sig.memoryReadEnable then result.map s.readCell else result

/-- The data memory's write port: `write_data` is the register of i1 (R159). -/
def memoryPort (s : State) (sig : Signals) (w : Word) (result : Option Word) : Option State :=
  if sig.memoryWriteEnable then result.map fun a => s.writeCell a (s.readReg (regOf (field1 w))) else some s

/-- The register bank's write port: the register of i1 (R162). -/
def registerPort (s : State) (sig : Signals) (w : Word) (data : Option Word) : Option State :=
  if sig.registerWriteEnable then data.map fun v => s.writeReg (regOf (field1 w)) v else some s

/-- The program counter's next value (R157, 10_state.md R26). -/
def nextPc (s : State) (sig : Signals) (w : Word) (condition : Option Bool) : Option Word :=
  if sig.jumpEnable then
    match condition with
    | some true  => (immediate s.params.immDecode (field1 w)).map fun n => s.pc + immWord n
    | some false => some (s.pc + 1#16)
    | none       => none
  else some (s.pc + 1#16)

/-- One cycle of the datapath on the word `w` at the pc (R171). Every output is computed from the state before the
cycle. `none`: the word has no row in the table, or it needs an immediate that `IMM_DECODE` gives no value. -/
def datapathCycle (s : State) (w : Word) : Option State :=
  (decoder (field0 w)).bind fun sig =>
  (aluOperand2 s sig w).bind fun b =>
  let a := s.readReg (regOf (field2 w))
  let result := aluResult (field0 w) sig.negateOutput a b
  (nextPc s sig w (aluCondition s.params.cmp (field0 w) a b)).bind fun pc =>
  (memoryPort s sig w result).bind fun stored =>
  (registerPort stored sig w (dataOut s sig result)).map fun written =>
  written.setPc pc

end Sys2Proof.Machine
end

