-- ==== Sys2Proof/Safety.lean ====
section
/-! DEFINITION. The terms that claims use: what an instruction leaves unchanged, the invariant of the machine, the
terminal states and the premises of a run (70_reset_and_hazards.md R204, R205). -/

namespace Sys2Proof.Machine

/-- `n` steps of the machine from `s`, stopping at the first fault. -/
def runFor (n : Nat) (s : State) : Answer := Sys2Proof.core.run n s

/-! ## Frames -/

/-- From `s` to `t` nothing changes but the pc, the register `d` if one is named and the data cell `a` if one is
named: every other register, every other data cell, the whole instruction memory and the parameters are as before. -/
def UnchangedBut (d : Option Reg) (a : Option Word) (s t : State) : Prop :=
  (∀ r, some r ≠ d → t.readReg r = s.readReg r) ∧
  (∀ b, some b ≠ a → t.readCell b = s.readCell b) ∧
  t.imem = s.imem ∧ t.params = s.params

/-! ## The invariant -/

/-- Both memories are in canonical form: equal contents are equal data. -/
def State.Inv (s : State) : Prop := s.dmem.wf = true ∧ s.imem.rising = true

/-! ## Terminal states (70_reset_and_hazards.md R205) -/

/-- The instruction is a branch with offset 0 that is taken in `s`. -/
def selfBranchTaken (s : State) : Instr → Bool
  | .beq n s1 s2 => decide (n = 0) && condEq (s.readReg s1) (s.readReg s2)
  | .bgt n s1 s2 => decide (n = 0) && condGt s.params.cmp (s.readReg s1) (s.readReg s2)
  | .bge n s1 s2 => decide (n = 0) && condGe s.params.cmp (s.readReg s1) (s.readReg s2)
  | .not _ _ _ => false
  | .add _ _ _ => false
  | .sub _ _ _ => false
  | .or _ _ _ => false
  | .and _ _ _ => false
  | .addi _ _ _ => false
  | .read _ _ _ => false
  | .write _ _ _ => false
  | .readi _ _ _ => false
  | .writei _ _ _ => false

/-- A state at which a run ends: the instruction at the pc is a taken branch whose offset is 0 (R205, D12; log 19). -/
def State.terminal (s : State) : Bool :=
  match fetchDecode s with
  | .ok i => selfBranchTaken s i
  | .error _ => false

/-! ## Premises of a run (70_reset_and_hazards.md R204)

A run is observed as `run : Nat → State`, the state after `k` cycles, because what the host does between two cycles
(R206) shows only there. -/

/-- `params_fixed`. -/
def ParamsFixed (p : Params) (s : State) : Prop := s.params = p
/-- `entry_at_reset_pc`. -/
def EntryAtResetPc (s : State) : Prop := s.pc = resetPc
/-- `image_loaded`, the first half: the cells hold the program's words from 0x0000 in order, and no other cell has a
value. -/
def ImageLoaded (image : List Word) (s : State) : Prop := ∀ a : Word, s.fetchCell a = image[a.toNat]?
/-- `image_loaded`, the second half: the image covers every address from which the first `n` steps of the run fetch. -/
def ImageCovers (image : List Word) (n : Nat) (run : Nat → State) : Prop := ∀ k, k < n → (run k).pc.toNat < image.length
/-- `r0_zero`. -/
def R0Zero (s : State) : Prop := s.readReg 0 = 0x0000#16
/-- `regs_unwritten`: r1 to r15 hold `REG_RESET`. No value is assumed: a claim takes `regReset` as a variable and says
nothing more of it (10_state.md R33, D10). -/
def RegsUnwritten (regReset : Vector Word 15) (s : State) : Prop := s.x = regReset
/-- `dmem_as_given`: the data memory is `DMEM_INIT`, which a claim states or quantifies over (10_state.md R33). -/
def DmemAsGiven (dmemInit : Memory) (s : State) : Prop := s.dmem = dmemInit
/-- `no_fault_recorded` for `n` steps. -/
def NoFaultFor (n : Nat) (s : State) : Prop := ∃ t, runFor n s = .next t
/-- `host_passive` for `n` steps: the state after each cycle is the one the step gives, so that from the load to the end
of the run nothing else changes it (R206, D17; log 23). -/
def HostPassive (n : Nat) (run : Nat → State) : Prop := ∀ k, k < n → ∀ t, step (run k) = .next t → run (k + 1) = t

/-- All the premises of the first `n` steps of a run, each under the name R204 gives it. -/
structure RunPremises (p : Params) (regReset : Vector Word 15) (dmemInit : Memory) (image : List Word) (n : Nat)
    (run : Nat → State) : Prop where
  params_fixed : ParamsFixed p (run 0)
  entry_at_reset_pc : EntryAtResetPc (run 0)
  image_loaded : ImageLoaded image (run 0) ∧ ImageCovers image n run
  r0_zero : R0Zero (run 0)
  regs_unwritten : RegsUnwritten regReset (run 0)
  dmem_as_given : DmemAsGiven dmemInit (run 0)
  no_fault_recorded : NoFaultFor n (run 0)
  host_passive : HostPassive n run

/-- A run that ends: from `s`, `n` steps reach the terminal state `t`, and no state before it is terminal (R205). -/
def EndsIn (n : Nat) (s t : State) : Prop :=
  runFor n s = .next t ∧ t.terminal = true ∧
  ∀ k u, k < n → runFor k s = .next u → u.terminal = false

/-! ## Position independence (R204) -/

/-- `t` is `s` with its image and pc moved by `b`, modulo 65536. -/
def ShiftedBy (b : Word) (s t : State) : Prop :=
  t.x = s.x ∧ t.dmem = s.dmem ∧ t.params = s.params ∧ t.pc = s.pc + b ∧
  ∀ a, t.fetchCell (a + b) = s.fetchCell a

/-- The same fault at an address moved by `b`. -/
def Fault.shift (b : Word) : Fault → Fault
  | .illegalOpcode pc w     => .illegalOpcode (pc + b) w
  | .reservedImmediate pc w => .reservedImmediate (pc + b) w
  | .undocumentedForm pc w  => .undocumentedForm (pc + b) w
  | .noInstruction pc       => .noInstruction (pc + b)

end Sys2Proof.Machine
end

