-- ==== Sys2Proof/Certificates/Slice0/Obligations.lean ====
section
/-! DEFINITION. The statements for the provers. Each docstring names the rule of spec/ it formalises; where a clause is
the spec's own decision (92_eei_decisions.md) or the model's choice, it says so.

Every statement about an instruction ranges over every state, so over every start value of the registers, both
memories and the pc, and over both values of each open parameter. -/

open Sys2Proof Sys2Proof.Machine

/-! ## The instructions: result, frame and completion -/

/-- 40_alu_register.md R100, documented form: every bit of x[S1] is complemented. That a write to r0 is discarded is
the spec's decision D19. -/
def Obligations.NotComplementsEveryBit : Prop :=
  ∀ (s : State) (d s1 : Reg), ∃ t, exec (.not d s1 0) s = .next t ∧
    (∀ k, k < 16 → (t.readReg d).getLsbD k = (decide (d ≠ 0) && !(s.readReg s1).getLsbD k)) ∧
    t.pc = s.pc + 1#16 ∧ UnchangedBut (some d) none s t

/-- R100, the form with i3 not r0. Both values of `NOT_S2_POLICY` are the spec's decision D8 (log 6): under `datapath`
the word runs and gives `~(x[S1] + x[S2])`, the sum modulo 65536 (D4); under `refuse` the step stops with
UndocumentedForm. -/
def Obligations.NotUndocumentedFormFollowsPolicy : Prop :=
  ∀ (s : State) (d s1 s2 : Reg), s2 ≠ 0 → s.fetchCell s.pc = some (assemble 0b0000#4 (regField d) (regField s1) (regField s2)) →
    (s.params.notS2 = .datapath → ∃ t, step s = .next t ∧
      (t.readReg d).toNat = (if d = 0 then 0 else 65535 - ((s.readReg s1).toNat + (s.readReg s2).toNat) % 65536) ∧
      t.pc = s.pc + 1#16 ∧ UnchangedBut (some d) none s t) ∧
    (s.params.notS2 = .refuse →
      step s = .fault (.undocumentedForm s.pc (assemble 0b0000#4 (regField d) (regField s1) (regField s2))))

/-- 40_alu_register.md, `+` (R101). That the sum is modulo 65536 is the spec's decision D4 (log 12); D19 for r0. -/
def Obligations.AddWritesSumModulo65536 : Prop :=
  ∀ (s : State) (d s1 s2 : Reg), ∃ t, exec (.add d s1 s2) s = .next t ∧
    (t.readReg d).toNat = (if d = 0 then 0 else ((s.readReg s1).toNat + (s.readReg s2).toNat) % 65536) ∧
    t.pc = s.pc + 1#16 ∧ UnchangedBut (some d) none s t

/-- 40_alu_register.md, `-` (R102). That the difference is modulo 65536 is the spec's decision D4 (log 12). -/
def Obligations.SubWritesDifferenceModulo65536 : Prop :=
  ∀ (s : State) (d s1 s2 : Reg), ∃ t, exec (.sub d s1 s2) s = .next t ∧
    ((t.readReg d).toNat : Int) =
      (if d = 0 then 0 else (((s.readReg s1).toNat : Int) - (s.readReg s2).toNat) % 65536) ∧
    t.pc = s.pc + 1#16 ∧ UnchangedBut (some d) none s t

/-- 40_alu_register.md R103, whole: syntax, encoding, control signals, and the result bit by bit. That r0 stays 0 is
10_state.md R21. -/
def Obligations.OrIsBitwise : Prop :=
  (∀ d s1 s2, parseTokens [['o', 'r'], regText d, regText s1, regText s2] = some (.or d s1 s2)) ∧
  (∀ p d s1 s2, decode p (assemble 0b0011#4 (regField d) (regField s1) (regField s2)) = .ok (.or d s1 s2)) ∧
  aluOperation 0b0011#4 = some .or ∧
  (∃ sig, decoder 0b0011#4 = some sig ∧ sig.negateOutput = false ∧ sig.registerWriteEnable = true) ∧
  ∀ (s : State) (d s1 s2 : Reg), ∃ t, exec (.or d s1 s2) s = .next t ∧
    (∀ k, k < 16 → (t.readReg d).getLsbD k =
      (decide (d ≠ 0) && ((s.readReg s1).getLsbD k || (s.readReg s2).getLsbD k))) ∧
    t.pc = s.pc + 1#16 ∧ UnchangedBut (some d) none s t

/-- 40_alu_register.md R104, whole: syntax, encoding, control signals, and the result bit by bit. That r0 stays 0 is
10_state.md R21. -/
def Obligations.AndIsBitwise : Prop :=
  (∀ d s1 s2, parseTokens [['a', 'n', 'd'], regText d, regText s1, regText s2] = some (.and d s1 s2)) ∧
  (∀ p d s1 s2, decode p (assemble 0b0100#4 (regField d) (regField s1) (regField s2)) = .ok (.and d s1 s2)) ∧
  aluOperation 0b0100#4 = some .and ∧
  (∃ sig, decoder 0b0100#4 = some sig ∧ sig.negateOutput = false ∧ sig.registerWriteEnable = true) ∧
  ∀ (s : State) (d s1 s2 : Reg), ∃ t, exec (.and d s1 s2) s = .next t ∧
    (∀ k, k < 16 → (t.readReg d).getLsbD k =
      (decide (d ≠ 0) && ((s.readReg s1).getLsbD k && (s.readReg s2).getLsbD k))) ∧
    t.pc = s.pc + 1#16 ∧ UnchangedBut (some d) none s t

/-- 42_add_immediate.md, `+i` (R120). Modulo 65536 is D4 (log 12); which field stands for `n` is `IMM_DECODE`. -/
def Obligations.AddImmediateWritesSum : Prop :=
  ∀ (s : State) (d s1 : Reg) (n : Int), ∃ t, exec (.addi d s1 n) s = .next t ∧
    ((t.readReg d).toNat : Int) = (if d = 0 then 0 else (((s.readReg s1).toNat : Int) + n) % 65536) ∧
    t.pc = s.pc + 1#16 ∧ UnchangedBut (some d) none s t

/-- 41_branches.md R112: syntax, encoding, control signals, both outcomes, and that nothing but the pc changes. That the
spelling of the offset has a sign (`immText`) is the spec's decision D21 (log 21, DESIGN CHOICE); that the table's X, no
ALU operation, is `none` is the model's reading (log 26, DEDUCED). -/
def Obligations.BranchIfEqual : Prop :=
  (∀ n s1 s2, immInRange n = true →
    parseTokens [['='], immText n, regText s1, regText s2] = some (.beq n s1 s2)) ∧
  (∀ p f n s1 s2, immediate p.immDecode f = some n →
    decode p (assemble 0b0101#4 f (regField s1) (regField s2)) = .ok (.beq n s1 s2)) ∧
  (∃ sig, decoder 0b0101#4 = some sig ∧ sig.jumpEnable = true ∧ sig.registerWriteEnable = false ∧
    sig.memoryWriteEnable = false ∧ sig.memoryReadEnable = false ∧ aluOperation 0b0101#4 = none) ∧
  ∀ (s : State) (n : Int) (s1 s2 : Reg), ∃ t, exec (.beq n s1 s2) s = .next t ∧
    t.pc = (if s.readReg s1 = s.readReg s2 then s.pc + BitVec.ofInt 16 n else s.pc + 1#16) ∧ UnchangedBut none none s t

/-- 41_branches.md R113, for both values of `CMP_SIGNED` (D6; log 5). The signed spelling of the offset is D21 (log 21,
DESIGN CHOICE) and the `none` for the table's X is log 26 (DEDUCED). -/
def Obligations.BranchIfGreater : Prop :=
  (∀ n s1 s2, immInRange n = true →
    parseTokens [['>'], immText n, regText s1, regText s2] = some (.bgt n s1 s2)) ∧
  (∀ p f n s1 s2, immediate p.immDecode f = some n →
    decode p (assemble 0b0110#4 f (regField s1) (regField s2)) = .ok (.bgt n s1 s2)) ∧
  decoder 0b0110#4 = decoder 0b0101#4 ∧ aluOperation 0b0110#4 = none ∧
  ∀ (s : State) (n : Int) (s1 s2 : Reg), ∃ t, exec (.bgt n s1 s2) s = .next t ∧
    (s.params.cmp = .signed → t.pc =
      (if (s.readReg s1).toInt > (s.readReg s2).toInt then s.pc + BitVec.ofInt 16 n else s.pc + 1#16)) ∧
    (s.params.cmp = .unsigned → t.pc =
      (if (s.readReg s1).toNat > (s.readReg s2).toNat then s.pc + BitVec.ofInt 16 n else s.pc + 1#16)) ∧
    UnchangedBut none none s t

/-- 41_branches.md R114, for both values of `CMP_SIGNED` (D6; log 5). The signed spelling of the offset is D21 (log 21,
DESIGN CHOICE) and the `none` for the table's X is log 26 (DEDUCED). -/
def Obligations.BranchIfGreaterOrEqual : Prop :=
  (∀ n s1 s2, immInRange n = true →
    parseTokens [['>', '='], immText n, regText s1, regText s2] = some (.bge n s1 s2)) ∧
  (∀ p f n s1 s2, immediate p.immDecode f = some n →
    decode p (assemble 0b0111#4 f (regField s1) (regField s2)) = .ok (.bge n s1 s2)) ∧
  decoder 0b0111#4 = decoder 0b0101#4 ∧ aluOperation 0b0111#4 = none ∧
  ∀ (s : State) (n : Int) (s1 s2 : Reg), ∃ t, exec (.bge n s1 s2) s = .next t ∧
    (s.params.cmp = .signed → t.pc =
      (if (s.readReg s1).toInt ≥ (s.readReg s2).toInt then s.pc + BitVec.ofInt 16 n else s.pc + 1#16)) ∧
    (s.params.cmp = .unsigned → t.pc =
      (if (s.readReg s1).toNat ≥ (s.readReg s2).toNat then s.pc + BitVec.ofInt 16 n else s.pc + 1#16)) ∧
    UnchangedBut none none s t

/-- 43_memory_access.md, `read` (R130). The address sum is modulo 65536: D4 (log 12). -/
def Obligations.ReadLoadsTheAddressedCell : Prop :=
  ∀ (s : State) (d s1 s2 : Reg),
    (eaRegReg s s1 s2).toNat = ((s.readReg s1).toNat + (s.readReg s2).toNat) % 65536 ∧
    ∃ t, exec (.read d s1 s2) s = .next t ∧
      t.readReg d = (if d = 0 then 0x0000#16 else s.readCell (eaRegReg s s1 s2)) ∧
      t.pc = s.pc + 1#16 ∧ UnchangedBut (some d) none s t

/-- 43_memory_access.md, `write` (R131). The address sum is modulo 65536: D4 (log 12). -/
def Obligations.WriteStoresToTheAddressedCell : Prop :=
  ∀ (s : State) (d s1 s2 : Reg),
    (eaRegReg s s1 s2).toNat = ((s.readReg s1).toNat + (s.readReg s2).toNat) % 65536 ∧
    ∃ t, exec (.write d s1 s2) s = .next t ∧
      t.readCell (eaRegReg s s1 s2) = s.readReg d ∧
      t.pc = s.pc + 1#16 ∧ UnchangedBut none (some (eaRegReg s s1 s2)) s t

/-- 43_memory_access.md, `readi` (R132, R134). The base register is unchanged unless it is D. Modulo 65536: D4. -/
def Obligations.ReadImmediateLoadsTheAddressedCell : Prop :=
  ∀ (s : State) (d s1 : Reg) (n : Int),
    ((eaRegImm s s1 n).toNat : Int) = (((s.readReg s1).toNat : Int) + n) % 65536 ∧
    ∃ t, exec (.readi d s1 n) s = .next t ∧
      t.readReg d = (if d = 0 then 0x0000#16 else s.readCell (eaRegImm s s1 n)) ∧
      t.pc = s.pc + 1#16 ∧ UnchangedBut (some d) none s t

/-- 43_memory_access.md, `writei` (R133, R134). No register changes, the base included. Modulo 65536: D4. -/
def Obligations.WriteImmediateStoresToTheAddressedCell : Prop :=
  ∀ (s : State) (d s1 : Reg) (n : Int),
    ((eaRegImm s s1 n).toNat : Int) = (((s.readReg s1).toNat : Int) + n) % 65536 ∧
    ∃ t, exec (.writei d s1 n) s = .next t ∧
      t.readCell (eaRegImm s s1 n) = s.readReg d ∧
      t.pc = s.pc + 1#16 ∧ UnchangedBut none (some (eaRegImm s s1 n)) s t

/-- 10_state.md R21: with destination r0 each of the eight register-writing instructions only advances the pc. The
discarding of the write is the spec's decision D19 (log 13). -/
def Obligations.DestinationR0ChangesOnlyThePc : Prop :=
  ∀ (s : State) (s1 s2 : Reg) (n : Int),
    (∀ i, i ∈ [Instr.not 0 s1 s2, .add 0 s1 s2, .sub 0 s1 s2, .or 0 s1 s2, .and 0 s1 s2, .addi 0 s1 n, .read 0 s1 s2,
        .readi 0 s1 n] → exec i s = .next { s with pc := s.pc + 1#16 }) ∧
    s.readReg 0 = 0x0000#16

/-! ## Whole-machine rules -/

/-- 60_exceptions.md R180: every instruction completes on every input, and no step is refused. -/
def Obligations.EveryInstructionCompletes : Prop :=
  (∀ (i : Instr) (s : State), ∃ t, exec i s = .next t) ∧ ∀ (s : State) (r : Refusal), step s ≠ .refused r

/-- 45_datapath_control.md R150, R151: an enable signal that is 0 in the row of the instruction's opcode keeps what it
gates. Without `register_write_enable` every register is kept, without `memory write enable` every data cell, and
without `jump_enable` the pc moves by 1 (modulo 65536: D5, log 12). -/
def Obligations.EnableSignalsGateEveryWrite : Prop :=
  ∀ (i : Instr) (s t : State), exec i s = .next t → ∃ sig, decoder i.opcode = some sig ∧
    (sig.registerWriteEnable = false → ∀ r, t.readReg r = s.readReg r) ∧
    (sig.memoryWriteEnable = false → ∀ a, t.readCell a = s.readCell a) ∧
    (sig.jumpEnable = false → t.pc = s.pc + 1#16)

/-- 10_state.md R26 and 45_datapath_control.md R157: the only ways the pc changes are +1 and +imm(i1), the second for
the three branch opcodes alone. Both sums are modulo 65536: D5 (log 12). -/
def Obligations.PcMovesByOneOrByTheBranchOffset : Prop :=
  ∀ s t : State, step s = .next t → ∃ w, s.fetchCell s.pc = some w ∧
    (t.pc.toNat = (s.pc.toNat + 1) % 65536 ∨
      (field0 w ∈ [0b0101#4, 0b0110#4, 0b0111#4] ∧
        ∃ n, immediate s.params.immDecode (field1 w) = some n ∧ (t.pc.toNat : Int) = ((s.pc.toNat : Int) + n) % 65536))

/-- 10_state.md R30: no run changes the instruction memory, and only fetch reads it, so no instruction's effect depends
on it. -/
def Obligations.InstructionMemoryIsOutOfReach : Prop :=
  (∀ (n : Nat) (s t : State), runFor n s = .next t → t.imem = s.imem) ∧
  ∀ (i : Instr) (s t : State) (m : Memory), exec i s = .next t →
    exec i { s with imem := m } = .next { t with imem := m }

/-- 20_memory.md R52 (a) and 70_reset_and_hazards.md R208: a load right after a store gives the stored value where the
addresses agree, and otherwise what the cell held before; in all four pairings of the addressing modes. -/
def Obligations.LoadAfterStoreSeesTheStore : Prop :=
  ∀ (s : State) (d s1 s2 e b1 b2 : Reg) (n m : Int) (st ld : Instr) (ea la : Word),
    (st, ea) ∈ [(Instr.write d s1 s2, eaRegReg s s1 s2), (.writei d s1 n, eaRegImm s s1 n)] →
    (ld, la) ∈ [(Instr.read e b1 b2, eaRegReg s b1 b2), (.readi e b1 m, eaRegImm s b1 m)] →
    ∃ t u, exec st s = .next t ∧ exec ld t = .next u ∧
      u.readReg e = (if e = 0 then 0x0000#16 else if la = ea then s.readReg d else s.readCell la)

/-! ## The step and its faults -/

/-- 00_scope.md R14: when the cell at the pc decodes to `i`, the step is exec of `i` in the same state; nothing is added
around it. -/
def Obligations.StepRunsTheDecodedInstruction : Prop :=
  ∀ (s : State) (w : Word) (i : Instr), s.fetchCell s.pc = some w → decode s.params w = .ok i → step s = exec i s

/-- 60_exceptions.md R182 and R184: which fault a step stops with, in the spec's order, and that it goes on otherwise.
The faults are the spec's device (D14, D7, D3, D8, D11; log 20). -/
def Obligations.StepStopsExactlyAsListed : Prop :=
  ∀ s : State,
    (s.fetchCell s.pc = none → step s = .fault (.noInstruction s.pc)) ∧
    ∀ w, s.fetchCell s.pc = some w →
      let reserved := s.params.immDecode = .twosComplement ∧
        ((field0 w ∈ [0b1000#4, 0b1011#4, 0b1100#4] ∧ field3 w = 0b1000#4) ∨
          (field0 w ∈ [0b0101#4, 0b0110#4, 0b0111#4] ∧ field1 w = 0b1000#4))
      let undocumented := s.params.notS2 = .refuse ∧ field0 w = 0b0000#4 ∧ field3 w ≠ 0b0000#4
      (0xD000 ≤ w.toNat → step s = .fault (.illegalOpcode s.pc w)) ∧
      (reserved → step s = .fault (.reservedImmediate s.pc w)) ∧
      (undocumented → step s = .fault (.undocumentedForm s.pc w)) ∧
      (w.toNat < 0xD000 → ¬ reserved → ¬ undocumented → ∃ t, step s = .next t)

/-- The step runs the word that the host places at the pc, and the placing changes no other instruction cell, no
register, no data cell and no parameter (log 10). -/
def Obligations.PlacedWordRunsNext : Prop :=
  ∀ (s : State) (nbits w : Nat),
    (∀ i, decode s.params (tableWord nbits w) = .ok i →
      step (s.withFetchWord nbits w) = exec i (s.withFetchWord nbits w)) ∧
    (∀ a, a ≠ s.pc → (s.withFetchWord nbits w).fetchCell a = s.fetchCell a) ∧
    (s.withFetchWord nbits w).x = s.x ∧ (s.withFetchWord nbits w).pc = s.pc ∧
    (s.withFetchWord nbits w).dmem = s.dmem ∧ (s.withFetchWord nbits w).params = s.params

/-! ## Encoding -/

/-- 30_encoding.md R60 to R70: decoding the word of a well-formed instruction gives it back, for every instruction,
operand and parameter value. -/
def Obligations.DecodeOfEncodeIsTheInstruction : Prop :=
  ∀ (p : Params) (i : Instr), i.wellFormed p = true → decode p (encode p i) = .ok i

/-- 30_encoding.md R65 and R66: a word that decodes is the word of its instruction; the one exception is the second
zero, field 1000, of the sign-and-magnitude reading. -/
def Obligations.EncodeOfDecodeIsTheWord : Prop :=
  ∀ (p : Params) (w : Word) (i : Instr), decode p w = .ok i →
    encode p i = w ∨ (p.immDecode = .signMagnitude ∧
      ((field0 w ∈ [0b1000#4, 0b1011#4, 0b1100#4] ∧ field3 w = 0b1000#4) ∨
        (field0 w ∈ [0b0101#4, 0b0110#4, 0b0111#4] ∧ field1 w = 0b1000#4)))

/-- 30_encoding.md R66, R69, R72: the decoder gives well-formed instructions only, and the opcode alone selects the
instruction (R68). -/
def Obligations.DecodedInstructionIsWellFormed : Prop :=
  ∀ (p : Params) (w : Word) (i : Instr), decode p w = .ok i → i.wellFormed p = true ∧ i.opcode = field0 w

/-- 30_encoding.md R71: exactly the words 0xD000 to 0xFFFF have no instruction under any parameters. That they are
rejected is the spec's decision D7 (log 7). -/
def Obligations.IllegalOpcodesAreExactlyTheTopThree : Prop :=
  ∀ (p : Params) (w : Word), decode p w = .error .illegalOpcode ↔ 0xD000 ≤ w.toNat

/-- 30_encoding.md R66, both columns of the table. Which column holds is `IMM_DECODE` (D2), and that 1000 is reserved in
the first is the spec's decision D3 (logs 3 and 4). -/
def Obligations.ImmediateTable : Prop :=
  (∀ f : Nibble, immediate .twosComplement f =
    if f.toNat < 8 then some (f.toNat : Int) else if f.toNat = 8 then none else some ((f.toNat : Int) - 16)) ∧
  ∀ f : Nibble, immediate .signMagnitude f =
    if f.toNat < 8 then some (f.toNat : Int) else some (8 - (f.toNat : Int))

/-- 95_test_vectors.md section 2.1, words written out from the spec's encoding: one of each family, and a negative
immediate under both readings. The bit numbering is the spec's decision D1 (log 15). -/
def Obligations.SpecWordsDecode : Prop :=
  let tc : Params := initialParams
  let sm : Params := { initialParams with immDecode := .signMagnitude }
  decode tc 0x1123#16 = .ok (.add 1 2 3) ∧ decode tc 0x2FED#16 = .ok (.sub 15 14 13) ∧
  decode tc 0x69FE#16 = .ok (.bgt (-7) 15 14) ∧ decode sm 0x6FFE#16 = .ok (.bgt (-7) 15 14) ∧
  decode tc 0x834A#16 = .ok (.addi 3 4 (-6)) ∧ decode sm 0x834E#16 = .ok (.addi 3 4 (-6)) ∧
  decode tc 0x9ABC#16 = .ok (.read 10 11 12) ∧ decode tc 0xCF87#16 = .ok (.writei 15 8 7)

/-! ## Reset and the invariant -/

/-- 10_state.md R33: r0 is 0x0000 at the start of a run (the one value the source gives); pc = 0x0000 is the spec's
decision D9 (log 11), and that no instruction cell has a value before the load, so that the step stops with
NoInstruction, is D11 (log 10). -/
def Obligations.ResetLeavesTheSpecsValues : Prop :=
  State.reset.readReg 0 = 0x0000#16 ∧ State.reset.pc = 0x0000#16 ∧
  (∀ a, State.reset.fetchCell a = none) ∧ step State.reset = .fault (.noInstruction 0x0000#16)

/-- The invariant holds at reset: both memories are in canonical form (log 1). -/
def Obligations.InvariantHoldsAtReset : Prop := State.reset.Inv

/-- Every step from a state with the memories in canonical form leads to one (log 1; 20_memory.md R41, R46). -/
def Obligations.StepKeepsTheInvariant : Prop := ∀ s t : State, s.Inv → step s = .next t → t.Inv

/-- 70_reset_and_hazards.md R204 (`params_fixed`, `r0_zero`) and log 1: along a run the parameters keep their values, r0
reads as 0x0000 and the memories stay in canonical form. That the parameters stand in the state is the model's choice
(log 2). -/
def Obligations.RunKeepsThePremises : Prop :=
  ∀ (n : Nat) (s t : State), s.Inv → runFor n s = .next t →
    t.Inv ∧ (∀ p, ParamsFixed p s → ParamsFixed p t) ∧ R0Zero t

/-! ## The datapath -/

/-- 45_datapath_control.md R171 with R150 to R170: for every word that decodes, one cycle of the datapath gives the next
state that the instruction's rule gives. The wiring is derived by the spec. -/
def Obligations.DatapathAgreesWithTheInstruction : Prop :=
  ∀ (s : State) (w : Word) (i : Instr), decode s.params w = .ok i →
    ∃ t, datapathCycle s w = some t ∧ exec i s = .next t

/-- 45_datapath_control.md R151, the invariants read off the control-signal table, and the opcodes it has rows for. -/
def Obligations.ControlSignalInvariants : Prop :=
  (∀ op : Nibble, decoder op = none ↔ 13 ≤ op.toNat) ∧
  ∀ (op : Nibble) (sig : Signals), decoder op = some sig →
    ¬ (sig.registerWriteEnable = true ∧ sig.memoryWriteEnable = true) ∧
    ¬ (sig.registerWriteEnable = true ∧ sig.jumpEnable = true) ∧
    ¬ (sig.memoryWriteEnable = true ∧ sig.jumpEnable = true) ∧
    (sig.memoryReadEnable = true → sig.registerWriteEnable = true) ∧
    (sig.negateOutput = true ↔ op = 0b0000#4) ∧
    (sig.aluImmediate = true ↔ op ∈ [0b1000#4, 0b1011#4, 0b1100#4])

/-- 41_branches.md R110: the laws of the comparisons, that the two readings differ exactly when the top bits do, and (D6)
that they agree on 0x0000 to 0x7FFF. -/
def Obligations.ComparisonLaws : Prop :=
  (∀ m a b, condGe m a b = (condGt m a b || condEq a b)) ∧
  (∀ m a b, condGe m a b = !condGt m b a) ∧
  (∀ a b : Word, condGt .signed a b ≠ condGt .unsigned a b ↔ a.msb ≠ b.msb) ∧
  (∀ a b : Word, condGe .signed a b ≠ condGe .unsigned a b ↔ a.msb ≠ b.msb)

/-! ## The end of a run -/

/-- 70_reset_and_hazards.md R205: a step leaves the whole state unchanged exactly in the terminal states. The definition
of the end of a run is the spec's decision D12 (log 19). -/
def Obligations.FixedPointsAreTheTerminalStates : Prop := ∀ s : State, step s = .next s ↔ s.terminal = true

/-- R205: a terminal state is kept for every number of steps. -/
def Obligations.TerminalStateIsKeptForEver : Prop :=
  ∀ (s : State), s.terminal = true → ∀ n, runFor n s = .next s

/-- R205: "The canonical form is `= 0 r0 r0`, word 0x5000, which is taken in every state." -/
def Obligations.CanonicalStopIsTakenInEveryState : Prop :=
  ∀ s : State, s.fetchCell s.pc = some 0x5000#16 → s.terminal = true ∧ step s = .next s

/-- R205: a run has one end. Whatever numbers of steps are looked at, two terminal states of one run are the same
state. -/
def Obligations.TerminalStatesOfARunAgree : Prop :=
  ∀ (n m : Nat) (s t u : State), runFor n s = .next t → t.terminal = true →
    runFor m s = .next u → u.terminal = true → t = u

/-- 70_reset_and_hazards.md R204, last paragraph: the same image run from another place makes the same steps with every
pc shifted, and stops with the same fault at the shifted pc. Places are modulo 65536. -/
def Obligations.RunsArePositionIndependent : Prop :=
  ∀ (b : Word) (n : Nat) (s t : State), ShiftedBy b s t →
    (∀ s', runFor n s = .next s' → ∃ t', runFor n t = .next t' ∧ ShiftedBy b s' t') ∧
    (∀ f, runFor n s = .fault f → runFor n t = .fault (f.shift b))

/-! ## Load, assembly and pseudo-instructions -/

/-- 70_reset_and_hazards.md R203 and R204: booting an image that fits sets up the premises of a run for every start value
of the registers and the data memory, and the placement is the spec's decision D11. An image that does not fit is
not loaded: the model's choice (log 22). -/
def Obligations.BootEstablishesThePremises : Prop :=
  ∀ (p : Params) (regs : Vector Word 15) (data : Memory) (image : List Word),
    (image.length ≤ 65536 → ∃ s, boot p regs data image = some s ∧
      ParamsFixed p s ∧ EntryAtResetPc s ∧ ImageLoaded image s ∧ R0Zero s ∧ RegsUnwritten regs s ∧ DmemAsGiven data s ∧
      (data.wf = true → s.Inv)) ∧
    (65536 < image.length → boot p regs data image = none)

/-- 70_reset_and_hazards.md R204, all eight premises: a booted machine whose first `n` steps raise no fault has a run
that meets them, so the image covers every address it fetches from. -/
def Obligations.BootedRunMeetsThePremises : Prop :=
  ∀ (p : Params) (regs : Vector Word 15) (data : Memory) (image : List Word) (s : State) (n : Nat),
    boot p regs data image = some s → NoFaultFor n s →
    ∃ run : Nat → State, run 0 = s ∧ RunPremises p regs data image n run

/-- 70_reset_and_hazards.md R204 (`host_passive`) and R206: while the host does nothing and no fault is raised, the
states seen are those of the machine's own run. That the host does nothing is the spec's decision D17 (log 23). -/
def Obligations.PassiveHostSeesTheMachinesRun : Prop :=
  ∀ (n : Nat) (run : Nat → State), HostPassive n run → NoFaultFor n (run 0) →
    ∀ k, k ≤ n → runFor k (run 0) = .next (run k)

/-- 70_reset_and_hazards.md R204: the premises determine the run. Two runs that meet them for the same parameters, start
values and image agree after every cycle in all the state a program can see, in the instruction cells, and in whether
the run has ended (R205). -/
def Obligations.PremisesDetermineTheRun : Prop :=
  ∀ (p : Params) (regs : Vector Word 15) (data : Memory) (image : List Word) (n : Nat) (run run' : Nat → State),
    RunPremises p regs data image n run → RunPremises p regs data image n run' →
    ∀ k, k ≤ n → (run k).x = (run' k).x ∧ (run k).pc = (run' k).pc ∧ (run k).dmem = (run' k).dmem ∧
      (run k).params = (run' k).params ∧ (∀ a, (run k).fetchCell a = (run' k).fetchCell a) ∧
      (run k).terminal = (run' k).terminal

/-- 30_encoding.md R80 to R82 and R85: the line of a documented real instruction is read back as it, with or without a
comment after it (R83). What else a translator may accept is not assumed (D21; log 21). -/
def Obligations.AssemblyLineRoundTrip : Prop :=
  ∀ (i : Instr) (c : Text), i.wellFormed { initialParams with notS2 := .refuse } = true →
    parseLine (lineText i) = some (.code i) ∧ parseLine (lineText i ++ ' ' :: '#' :: c) = some (.code i)

/-- 44_pseudoinstructions.md R140 to R145: the line of a pseudo-instruction is read as its expansion, and a comment line
as nothing (30_encoding.md R83). -/
def Obligations.PseudoInstructionLinesExpand : Prop :=
  (∀ q : Pseudo, parseLine (pseudoText q) = some (.code (expand q))) ∧
  ∀ c : Text, parseLine ('#' :: c) = some .empty

/-- 44_pseudoinstructions.md R140, R141, R144, whole: syntax, expansion, word and effect of `not S1`, `idle` and
`move`, and what the ALU forms for `idle`. -/
def Obligations.NotIdleMoveEffects : Prop :=
  (∀ (p : Params) (r : Reg), parseTokens [['n', 'o', 't'], regText r] = some (.not r r 0) ∧
    expand (.notSelf r) = .not r r 0 ∧ encode p (.not r r 0) = assemble 0b0000#4 (regField r) (regField r) 0b0000#4) ∧
  (∀ p : Params, parseTokens [['i', 'd', 'l', 'e']] = some (.not 0 0 0) ∧
    expand .idle = .not 0 0 0 ∧ encode p (.not 0 0 0) = 0x0000#16) ∧
  (∀ s : State, ∃ sig, decoder 0b0000#4 = some sig ∧
    aluResult 0b0000#4 sig.negateOutput (s.readReg 0) (s.readReg 0) = some 0xFFFF#16) ∧
  (∀ (p : Params) (a b : Reg), parseTokens [['m', 'o', 'v', 'e'], regText a, regText b] = some (.add a b 0) ∧
    expand (.move a b) = .add a b 0 ∧ encode p (.add a b 0) = assemble 0b0001#4 (regField a) (regField b) 0b0000#4) ∧
  ∀ (s : State) (r a b : Reg),
    (∃ t, exec (expand (.notSelf r)) s = .next t ∧
      (∀ k, k < 16 → (t.readReg r).getLsbD k = (decide (r ≠ 0) && !(s.readReg r).getLsbD k)) ∧
      t.pc = s.pc + 1#16 ∧ UnchangedBut (some r) none s t) ∧
    (∃ t, exec (expand .idle) s = .next t ∧ t.pc = s.pc + 1#16 ∧ UnchangedBut none none s t) ∧
    (∃ t, exec (expand (.move a b)) s = .next t ∧ t.readReg a = (if a = 0 then 0x0000#16 else s.readReg b) ∧
      t.pc = s.pc + 1#16 ∧ UnchangedBut (some a) none s t)

/-- 44_pseudoinstructions.md, `++` and `--` (R142, R143): the register moves by one, modulo 65536 (D4). The word of `--`
is 0x8SSF or 0x8SS9 by `IMM_DECODE` (D2). -/
def Obligations.IncrementDecrementEffects : Prop :=
  (∀ (p : Params) (r : Reg), encode p (expand (.inc r)) = assemble 0b1000#4 (regField r) (regField r) 0b0001#4 ∧
    (p.immDecode = .twosComplement →
      encode p (expand (.dec r)) = assemble 0b1000#4 (regField r) (regField r) 0b1111#4) ∧
    (p.immDecode = .signMagnitude →
      encode p (expand (.dec r)) = assemble 0b1000#4 (regField r) (regField r) 0b1001#4)) ∧
  ∀ (s : State) (r : Reg),
    (∃ t, exec (expand (.inc r)) s = .next t ∧
      (t.readReg r).toNat = (if r = 0 then 0 else ((s.readReg r).toNat + 1) % 65536) ∧
      t.pc = s.pc + 1#16 ∧ UnchangedBut (some r) none s t) ∧
    (∃ t, exec (expand (.dec r)) s = .next t ∧
      (t.readReg r).toNat = (if r = 0 then 0 else ((s.readReg r).toNat + 65535) % 65536) ∧
      t.pc = s.pc + 1#16 ∧ UnchangedBut (some r) none s t)

/-- 44_pseudoinstructions.md R145: an instruction is shown by a short spelling exactly when it is that spelling's
expansion; `not r0 r0 r0` is shown as `idle`. -/
def Obligations.ShortSpellingsAreExactlyTheExpansions : Prop :=
  ∀ (i : Instr) (q : Pseudo), shortSpelling i = some q ↔ expand q = i ∧ q ≠ .notSelf 0

/-- 30_encoding.md R71 and R72: the translator produces no word that a step stops on, under any parameters. That the
translator is no more than the spec shows is D21 (log 21). -/
def Obligations.TranslatedWordsAllDecode : Prop :=
  ∀ (p : Params) (lines : List Text) (ws : List Word), translateProgram p lines = some ws →
    ∀ w ∈ ws, ∃ i, decode p w = .ok i ∧ encode p i = w

/-- 30_encoding.md R86: for a program the translator accepts, both forms of the command save the words of its
instructions, in order, in the file they name, and change no other file. The name where `salida` is omitted is a free
value, the same for every program of one source name (log 27); which lines are accepted is D21 (log 21), and the output
stands for its words (D16; log 25). -/
def Obligations.TranslatorSavesTheProgramsWords : Prop :=
  ∀ (p : Params) (files : Files) (source output : Text) (lines : List Text) (is : List Instr),
    files.find? source = some (.program lines) → parseProgram lines = some is →
    ∀ command name, (command, name) ∈ [([translatorName, source, output], output),
        ([translatorName, source], Config.omittedOutput source)] →
      ∃ files', runCommand p command files = some files' ∧
        files'.find? name = some (.image (is.map (encode p))) ∧
        ∀ other, other ≠ name → files'.find? other = files.find? other

/-- 70_reset_and_hazards.md R203 with 30_encoding.md R80, R86 and R87: the image that the command saves, loaded, holds
instruction `k` of the file at instruction address `k`, and a cell past the last has no value. The placement is the
spec's decision D11 (log 10). -/
def Obligations.TranslatedFileLoadsAsItsInstructions : Prop :=
  ∀ (p : Params) (files files' : Files) (source output : Text) (lines : List Text) (is : List Instr)
      (regs : Vector Word 15) (data : Memory),
    files.find? source = some (.program lines) → parseProgram lines = some is → is.length ≤ 65536 →
    runCommand p [translatorName, source, output] files = some files' →
    ∃ s, bootFile p regs data files' output = some s ∧ EntryAtResetPc s ∧
      ∀ k : Word, fetchDecode { s with pc := k } = match is[k.toNat]? with
        | some i => .ok i
        | none => .error (.noInstruction k)
end

