-- ==== Sys2Proof/Laws/Decode.lean ====
section
/-! SUPPORT. The small lemmas of the fields, the immediates and the encoder: each function's spec, said once. -/

namespace Sys2Proof

/-! ## Fields of an assembled word -/

@[simp] theorem field0_assemble (a b c d : Nibble) : field0 (assemble a b c d) = a := by
  apply BitVec.eq_of_getLsbD_eq
  intro i hi
  simp only [field0, assemble, BitVec.getLsbD_extractLsb', BitVec.getLsbD_append]
  have h1 : ¬ (12 + i < 4) := by omega
  have h2 : ¬ (12 + i - 4 < 4) := by omega
  have h3 : ¬ (12 + i - 4 - 4 < 4) := by omega
  have h4 : 12 + i - 4 - 4 - 4 = i := by omega
  simp [hi, h1, h2, h3, h4]

@[simp] theorem field1_assemble (a b c d : Nibble) : field1 (assemble a b c d) = b := by
  apply BitVec.eq_of_getLsbD_eq
  intro i hi
  simp only [field1, assemble, BitVec.getLsbD_extractLsb', BitVec.getLsbD_append]
  have h1 : ¬ (8 + i < 4) := by omega
  have h2 : ¬ (8 + i - 4 < 4) := by omega
  have h3 : 8 + i - 4 - 4 < 4 := by omega
  have h4 : 8 + i - 4 - 4 = i := by omega
  simp [hi, h1, h2, h4]

@[simp] theorem field2_assemble (a b c d : Nibble) : field2 (assemble a b c d) = c := by
  apply BitVec.eq_of_getLsbD_eq
  intro i hi
  simp only [field2, assemble, BitVec.getLsbD_extractLsb', BitVec.getLsbD_append]
  have h1 : ¬ (4 + i < 4) := by omega
  have h2 : 4 + i - 4 = i := by omega
  simp [hi, h1, h2]

@[simp] theorem field3_assemble (a b c d : Nibble) : field3 (assemble a b c d) = d := by
  apply BitVec.eq_of_getLsbD_eq
  intro i hi
  simp only [field3, assemble, BitVec.getLsbD_extractLsb', BitVec.getLsbD_append]
  simp [hi]

/-- A word is the word of its four fields (30_encoding.md R65). -/
@[simp] theorem assemble_fields (w : Word) : assemble (field0 w) (field1 w) (field2 w) (field3 w) = w := by
  apply BitVec.eq_of_getLsbD_eq
  intro i hi
  simp only [assemble, field0, field1, field2, field3, BitVec.getLsbD_extractLsb', BitVec.getLsbD_append]
  by_cases h1 : i < 4
  · simp [h1]
  · by_cases h2 : i < 8
    · have : i - 4 < 4 := by omega
      have e : 4 + (i - 4) = i := by omega
      simp [h1, this, e]
    · by_cases h3 : i < 12
      · have : ¬ (i - 4 < 4) := by omega
        have h5 : i - 4 - 4 < 4 := by omega
        have e : 8 + (i - 4 - 4) = i := by omega
        simp [h1, this, h5, e]
      · have : ¬ (i - 4 < 4) := by omega
        have h5 : ¬ (i - 4 - 4 < 4) := by omega
        have h6 : i - 4 - 4 - 4 < 4 := by omega
        have e : 12 + (i - 4 - 4 - 4) = i := by omega
        simp [h1, this, h5, h6, e]

/-! ## Registers -/

@[simp] theorem regOf_regField (r : Reg) : regOf (regField r) = r := rfl
@[simp] theorem regField_regOf (f : Nibble) : regField (regOf f) = f := rfl

/-! ## Immediates -/

theorem immInRange_iff (n : Int) : immInRange n = true ↔ -7 ≤ n ∧ n ≤ 7 := by simp [immInRange]

/-- The field of a number from -7 to 7 is read back as that number, under both readings. -/
theorem immediate_immField (m : ImmDecode) {n : Int} (h : immInRange n = true) :
    immediate m (immField m n) = some n := by
  rw [immInRange_iff] at h
  obtain ⟨h1, h2⟩ := h
  interval_cases n <;> cases m <;> decide

/-- What a field is read as lies in -7 to 7. -/
theorem immediate_inRange {m : ImmDecode} {f : Nibble} {n : Int} (h : immediate m f = some n) :
    immInRange n = true := by
  have all : ∀ f : Fin 16, (immediate m (BitVec.ofFin f)).all immInRange = true := by
    cases m <;> decide
  have hf := all f.toFin
  rw [show BitVec.ofFin f.toFin = f from rfl, h] at hf
  exact hf

/-- Two's complement gives no value to the field 1000 alone. -/
theorem immediate_eq_none_iff (m : ImmDecode) (f : Nibble) :
    immediate m f = none ↔ m = .twosComplement ∧ f = 0b1000#4 := by
  cases m with
  | twosComplement =>
    by_cases h : f = 0b1000#4
    · subst h; decide
    · unfold immediate; rw [if_neg h]; simp only [h, and_false, reduceCtorEq]
  | signMagnitude => simp only [immediate, reduceCtorEq, false_and]

/-- Under two's complement the field is the one the encoder writes. -/
theorem immField_immediate {f : Nibble} {n : Int} (h : immediate .twosComplement f = some n) :
    immField .twosComplement n = f := by
  unfold immediate at h
  by_cases hf : f = 0b1000#4
  · rw [if_pos hf] at h; cases h
  · rw [if_neg hf] at h; cases h; exact BitVec.ofInt_toInt

/-! ## Decoding's shared shapes -/

theorem withImmediate_eq_ok {p : Params} {f : Nibble} {make : Int → Instr} {i : Instr} :
    withImmediate p f make = .ok i ↔ ∃ n, immediate p.immDecode f = some n ∧ make n = i := by
  unfold withImmediate
  cases immediate p.immDecode f <;> simp

theorem withImmediate_eq_error {p : Params} {f : Nibble} {make : Int → Instr} {e : DecodeError} :
    withImmediate p f make = .error e ↔ immediate p.immDecode f = none ∧ e = .reservedImmediate := by
  unfold withImmediate
  cases immediate p.immDecode f with
  | none => exact ⟨fun h => by cases h; exact ⟨rfl, rfl⟩, fun h => by rw [h.2]⟩
  | some n => exact ⟨fun h => (by cases h), fun h => (by cases h.1)⟩

theorem decodeNot_eq_ok {p : Params} {d s1 s2 : Reg} {i : Instr} :
    decodeNot p d s1 s2 = .ok i ↔ notFormAdmitted p s2 = true ∧ .not d s1 s2 = i := by
  unfold decodeNot
  split <;> simp_all

theorem decodeNot_eq_error {p : Params} {d s1 s2 : Reg} {e : DecodeError} :
    decodeNot p d s1 s2 = .error e ↔ notFormAdmitted p s2 = false ∧ e = .undocumentedForm := by
  unfold decodeNot
  cases notFormAdmitted p s2 with
  | false => exact ⟨fun h => by cases h; exact ⟨rfl, rfl⟩, fun h => by rw [h.2]; rfl⟩
  | true => exact ⟨fun h => (by cases h), fun h => (by cases h.1)⟩

end Sys2Proof
end

