-- ==== Sys2Proof/Laws/Assembler.lean ====
section
/-! SUPPORT. The small lemmas of the assembly language: each spelling is read back, and how a line falls into tokens. -/

namespace Sys2Proof.Machine

/-- No space and no comment sign. -/
def Plain (t : Text) : Prop := ∀ c ∈ t, c ≠ ' ' ∧ c ≠ '#'

theorem plain_of_all {t : Text} (h : (t.all fun c => decide (c ≠ ' ') && decide (c ≠ '#')) = true) : Plain t := by
  intro c hc
  have := List.all_eq_true.1 h c hc
  simpa using this

/-! ## Spellings -/

@[simp] theorem parseReg_regText (r : Reg) : parseReg (regText r) = some r := by
  revert r; decide

theorem parseImm_immText {n : Int} (h : immInRange n = true) : parseImm (immText n) = some n := by
  rw [immInRange_iff] at h
  obtain ⟨h1, h2⟩ := h
  interval_cases n <;> decide

/-- What is read as an immediate lies in -7 to 7. -/
theorem parseImm_inRange {t : Text} {n : Int} (h : parseImm t = some n) : immInRange n = true := by
  have digit : ∀ {c k}, parseDigit c = some k → k ≤ 7 := by
    intro c k hk
    have := List.mem_of_find?_eq_some hk
    simp at this
    omega
  unfold parseImm at h
  split at h
  · simp only [Option.map_eq_some_iff] at h
    obtain ⟨k, hk, rfl⟩ := h
    have := digit hk
    rw [immInRange_iff]; omega
  · simp only [Option.map_eq_some_iff] at h
    obtain ⟨k, hk, rfl⟩ := h
    have := digit hk
    rw [immInRange_iff]; omega
  · cases h

theorem plain_regText (r : Reg) : Plain (regText r) := plain_of_all (by revert r; decide)

theorem plain_immText {n : Int} (h : immInRange n = true) : Plain (immText n) := by
  rw [immInRange_iff] at h
  obtain ⟨h1, h2⟩ := h
  apply plain_of_all
  interval_cases n <;> decide

theorem plain_mnemonicText (i : Instr) : Plain (mnemonicText i) := by cases i <;> exact plain_of_all rfl

/-! ## Tokens and comments -/

theorem tokens_append {t : Text} (h : Plain t) (rest : Text) : tokens (t ++ ' ' :: rest) = t :: tokens rest := by
  induction t with
  | nil => simp [tokens]
  | cons c t ih => simp [tokens, (h c (by simp)).1, ih fun x hx => h x (by simp [hx])]

theorem tokens_plain {t : Text} (h : Plain t) : tokens t = [t] := by
  induction t with
  | nil => rfl
  | cons c t ih => simp [tokens, (h c (by simp)).1, ih fun x hx => h x (by simp [hx])]

theorem stripComment_append {t u : Text} (h : ∀ c ∈ t, c ≠ '#') (hu : u.head? ≠ some '#') :
    stripComment (t ++ u) = t ++ stripComment u := by
  induction t with
  | nil => rfl
  | cons c t ih =>
    have hh : (t ++ u).head? ≠ some '#' := by
      cases t with
      | nil => simpa using hu
      | cons d t => simpa using h d (by simp)
    simp only [List.cons_append, stripComment, if_neg (h c (by simp)), hh, and_false, if_false]
    rw [ih fun x hx => h x (by simp [hx])]

theorem stripComment_of_none {t : Text} (h : ∀ c ∈ t, c ≠ '#') : stripComment t = t := by
  simpa [stripComment] using stripComment_append (u := []) h (by simp)

theorem stripComment_comment {t : Text} (h : ∀ c ∈ t, c ≠ '#') (c : Text) :
    stripComment (t ++ ' ' :: '#' :: c) = t := by
  rw [stripComment_append h (by simp)]
  simp [stripComment]

/-! ## Forms -/

theorem parseR_eq_some {make : Reg → Reg → Reg → Instr} {a b c : Text} {i : Instr} :
    parseR make a b c = some i ↔
      ∃ x y z, parseReg a = some x ∧ parseReg b = some y ∧ parseReg c = some z ∧ make x y z = i := by
  simp only [parseR, Option.bind_eq_some_iff, Option.map_eq_some_iff]
  exact ⟨fun ⟨x, hx, y, hy, z, hz, e⟩ => ⟨x, y, z, hx, hy, hz, e⟩, fun ⟨x, y, z, hx, hy, hz, e⟩ => ⟨x, hx, y, hy, z, hz, e⟩⟩

theorem parseI_eq_some {make : Reg → Reg → Int → Instr} {a b c : Text} {i : Instr} :
    parseI make a b c = some i ↔
      ∃ x y n, parseReg a = some x ∧ parseReg b = some y ∧ parseImm c = some n ∧ make x y n = i := by
  simp only [parseI, Option.bind_eq_some_iff, Option.map_eq_some_iff]
  exact ⟨fun ⟨x, hx, y, hy, z, hz, e⟩ => ⟨x, y, z, hx, hy, hz, e⟩, fun ⟨x, y, z, hx, hy, hz, e⟩ => ⟨x, hx, y, hy, z, hz, e⟩⟩

theorem parseJ_eq_some {make : Int → Reg → Reg → Instr} {a b c : Text} {i : Instr} :
    parseJ make a b c = some i ↔
      ∃ n x y, parseImm a = some n ∧ parseReg b = some x ∧ parseReg c = some y ∧ make n x y = i := by
  simp only [parseJ, Option.bind_eq_some_iff, Option.map_eq_some_iff]
  exact ⟨fun ⟨x, hx, y, hy, z, hz, e⟩ => ⟨x, y, z, hx, hy, hz, e⟩, fun ⟨x, y, z, hx, hy, hz, e⟩ => ⟨x, hx, y, hy, z, hz, e⟩⟩

end Sys2Proof.Machine
end

