-- ==== Sys2Proof/Laws/State.lean ====
section
/-! SUPPORT. One lemma per field per update of the state. -/

namespace Sys2Proof.Machine

@[simp] theorem setPc_pc (s : State) (t : Word) : (s.setPc t).pc = t := rfl
@[simp] theorem setPc_x (s : State) (t : Word) : (s.setPc t).x = s.x := rfl
@[simp] theorem setPc_dmem (s : State) (t : Word) : (s.setPc t).dmem = s.dmem := rfl
@[simp] theorem setPc_imem (s : State) (t : Word) : (s.setPc t).imem = s.imem := rfl
@[simp] theorem setPc_params (s : State) (t : Word) : (s.setPc t).params = s.params := rfl

@[simp] theorem advance_pc (s : State) : s.advance.pc = s.pc + 1#16 := rfl
@[simp] theorem advance_x (s : State) : s.advance.x = s.x := rfl
@[simp] theorem advance_dmem (s : State) : s.advance.dmem = s.dmem := rfl
@[simp] theorem advance_imem (s : State) : s.advance.imem = s.imem := rfl
@[simp] theorem advance_params (s : State) : s.advance.params = s.params := rfl

@[simp] theorem writeReg_pc (s : State) (r : Reg) (v : Word) : (s.writeReg r v).pc = s.pc := by
  obtain ⟨_ | _, _⟩ := r <;> rfl
@[simp] theorem writeReg_dmem (s : State) (r : Reg) (v : Word) : (s.writeReg r v).dmem = s.dmem := by
  obtain ⟨_ | _, _⟩ := r <;> rfl
@[simp] theorem writeReg_imem (s : State) (r : Reg) (v : Word) : (s.writeReg r v).imem = s.imem := by
  obtain ⟨_ | _, _⟩ := r <;> rfl
@[simp] theorem writeReg_params (s : State) (r : Reg) (v : Word) : (s.writeReg r v).params = s.params := by
  obtain ⟨_ | _, _⟩ := r <;> rfl
@[simp] theorem writeReg_zero (s : State) (v : Word) : s.writeReg 0 v = s := rfl

@[simp] theorem writeCell_pc (s : State) (a v : Word) : (s.writeCell a v).pc = s.pc := rfl
@[simp] theorem writeCell_x (s : State) (a v : Word) : (s.writeCell a v).x = s.x := rfl
@[simp] theorem writeCell_dmem (s : State) (a v : Word) : (s.writeCell a v).dmem = s.dmem.write a v := rfl
@[simp] theorem writeCell_imem (s : State) (a v : Word) : (s.writeCell a v).imem = s.imem := rfl
@[simp] theorem writeCell_params (s : State) (a v : Word) : (s.writeCell a v).params = s.params := rfl

@[simp] theorem placeWord_pc (s : State) (a w : Word) : (s.placeWord a w).pc = s.pc := rfl
@[simp] theorem placeWord_x (s : State) (a w : Word) : (s.placeWord a w).x = s.x := rfl
@[simp] theorem placeWord_dmem (s : State) (a w : Word) : (s.placeWord a w).dmem = s.dmem := rfl
@[simp] theorem placeWord_imem (s : State) (a w : Word) : (s.placeWord a w).imem = s.imem.insert a.toNat w := rfl
@[simp] theorem placeWord_params (s : State) (a w : Word) : (s.placeWord a w).params = s.params := rfl

/-- A register read sees the registers alone. -/
theorem readReg_congr {s t : State} (h : t.x = s.x) (r : Reg) : t.readReg r = s.readReg r := by
  obtain ⟨_ | n, hn⟩ := r
  · rfl
  · simp [State.readReg, h]

@[simp] theorem readReg_zero (s : State) : s.readReg 0 = 0x0000#16 := rfl
@[simp] theorem setPc_readReg (s : State) (t : Word) (r : Reg) : (s.setPc t).readReg r = s.readReg r :=
  readReg_congr rfl r
@[simp] theorem advance_readReg (s : State) (r : Reg) : s.advance.readReg r = s.readReg r := readReg_congr rfl r
@[simp] theorem writeCell_readReg (s : State) (a v : Word) (r : Reg) :
    (s.writeCell a v).readReg r = s.readReg r := readReg_congr rfl r
@[simp] theorem placeWord_readReg (s : State) (a w : Word) (r : Reg) :
    (s.placeWord a w).readReg r = s.readReg r := readReg_congr rfl r

@[simp] theorem setPc_readCell (s : State) (t a : Word) : (s.setPc t).readCell a = s.readCell a := rfl
@[simp] theorem advance_readCell (s : State) (a : Word) : s.advance.readCell a = s.readCell a := rfl
@[simp] theorem writeReg_readCell (s : State) (r : Reg) (v a : Word) :
    (s.writeReg r v).readCell a = s.readCell a := by simp [State.readCell]

@[simp] theorem setPc_fetchCell (s : State) (t a : Word) : (s.setPc t).fetchCell a = s.fetchCell a := rfl
@[simp] theorem advance_fetchCell (s : State) (a : Word) : s.advance.fetchCell a = s.fetchCell a := rfl
@[simp] theorem writeReg_fetchCell (s : State) (r : Reg) (v a : Word) :
    (s.writeReg r v).fetchCell a = s.fetchCell a := by simp [State.fetchCell]
@[simp] theorem writeCell_fetchCell (s : State) (b v a : Word) :
    (s.writeCell b v).fetchCell a = s.fetchCell a := rfl

end Sys2Proof.Machine
end

