-- ==== Sys2Proof/Laws/Ops.lean ====
section
/-! SUPPORT. What the shared operations do: reads after writes, the canonical forms of the two memories, and one
inversion lemma for each shape that instructions share. -/

namespace Sys2Proof.Machine

/-! ## Registers -/

/-- A read after a write, the hard-wired r0 included. -/
theorem readReg_writeReg (s : State) (d r : Reg) (v : Word) :
    (s.writeReg d v).readReg r = if r = d ∧ d ≠ 0 then v else s.readReg r := by
  obtain ⟨_ | n, hn⟩ := d
  · simp [State.writeReg]
  · obtain ⟨_ | k, hk⟩ := r
    · simp [State.readReg]
    · simp only [State.writeReg, State.readReg, Vector.getElem_set]
      by_cases h : n = k
      · simp [h]
      · simp [h, Ne.symm h]

theorem readReg_writeReg_self (s : State) (d : Reg) (v : Word) :
    (s.writeReg d v).readReg d = if d = 0 then 0x0000#16 else v := by
  by_cases h : d = 0
  · subst h; rfl
  · simp [readReg_writeReg, h]

theorem readReg_writeReg_of_ne (s : State) {d r : Reg} (v : Word) (h : r ≠ d) :
    (s.writeReg d v).readReg r = s.readReg r := by simp [readReg_writeReg, h]

/-! ## Memories: reads after writes -/

theorem find?_insert (m : Memory) (a b : Nat) (v : Word) :
    (m.insert a v).find? b = if a = b then some v else m.find? b := by
  induction m with
  | nil => simp [Memory.insert, Memory.find?]
  | cons e rest ih =>
    obtain ⟨k, u⟩ := e
    simp only [Memory.insert]
    split
    · simp [Memory.find?]
    · split
      · next h => subst h; by_cases hb : k = b <;> simp [Memory.find?, hb]
      · next hka =>
        simp only [Memory.find?, ih]
        by_cases hb : k = b
        · subst hb; simp [Ne.symm hka]
        · simp [hb]

theorem find?_erase (m : Memory) (a b : Nat) :
    (m.erase a).find? b = if a = b then none else m.find? b := by
  induction m with
  | nil => simp [Memory.erase, Memory.find?]
  | cons e rest ih =>
    obtain ⟨k, u⟩ := e
    simp only [Memory.erase]
    split
    · next h =>
      subst h; rw [ih]
      by_cases hb : k = b <;> simp [Memory.find?, hb]
    · next hka =>
      simp only [Memory.find?, ih]
      by_cases hb : k = b
      · subst hb; simp [Ne.symm hka]
      · simp [hb]

/-- A data-memory read after a write (20_memory.md R46), whatever form the list has. -/
theorem Memory.read_write (m : Memory) (a b v : Word) :
    (m.write a v).read b = if b = a then v else m.read b := by
  have hab : (a.toNat = b.toNat) = (b = a) := propext ⟨fun h => (BitVec.eq_of_toNat_eq h).symm, fun h => h ▸ rfl⟩
  unfold Memory.write Memory.read
  split
  · next h => simp only [find?_erase, hab]; split <;> simp_all
  · simp only [find?_insert, hab]; split <;> simp

@[simp] theorem readCell_writeCell (s : State) (a b v : Word) :
    (s.writeCell a v).readCell b = if b = a then v else s.readCell b := Memory.read_write s.dmem a b v

theorem fetchCell_placeWord (s : State) (a b w : Word) :
    (s.placeWord a w).fetchCell b = if b = a then some w else s.fetchCell b := by
  have hab : (a.toNat = b.toNat) = (b = a) := propext ⟨fun h => (BitVec.eq_of_toNat_eq h).symm, fun h => h ▸ rfl⟩
  simp only [State.fetchCell, placeWord_imem, find?_insert, hab]

/-! ## Memories: the canonical forms are kept -/

theorem risingFrom_mono {m : Memory} {low low' : Nat} (h : low' ≤ low) (hm : Memory.risingFrom low m = true) :
    Memory.risingFrom low' m = true := by
  cases m with
  | nil => rfl
  | cons e rest =>
    obtain ⟨k, u⟩ := e
    simp only [Memory.risingFrom, Bool.and_eq_true, decide_eq_true_eq] at hm ⊢
    exact ⟨⟨Nat.le_trans h hm.1.1, hm.1.2⟩, hm.2⟩

theorem risingFrom_insert {m : Memory} {low a : Nat} {v : Word} (hm : Memory.risingFrom low m = true)
    (hl : low ≤ a) (ha : a < Config.cells) : Memory.risingFrom low (m.insert a v) = true := by
  induction m generalizing low with
  | nil => simp [Memory.insert, Memory.risingFrom, hl, ha]
  | cons e rest ih =>
    obtain ⟨k, u⟩ := e
    simp only [Memory.risingFrom, Bool.and_eq_true, decide_eq_true_eq] at hm
    simp only [Memory.insert]
    split
    · next hk =>
      simp only [Memory.risingFrom, Bool.and_eq_true, decide_eq_true_eq]
      exact ⟨⟨hl, ha⟩, ⟨hk, hm.1.2⟩, hm.2⟩
    · split
      · next h => subst h; simp [Memory.risingFrom, hm]
      · simp only [Memory.risingFrom, Bool.and_eq_true, decide_eq_true_eq]
        exact ⟨hm.1, ih hm.2 (by omega)⟩

theorem risingFrom_erase {m : Memory} {low a : Nat} (hm : Memory.risingFrom low m = true) :
    Memory.risingFrom low (m.erase a) = true := by
  induction m generalizing low with
  | nil => rfl
  | cons e rest ih =>
    obtain ⟨k, u⟩ := e
    simp only [Memory.risingFrom, Bool.and_eq_true, decide_eq_true_eq] at hm
    simp only [Memory.erase]
    split
    · exact ih (risingFrom_mono (by omega) hm.2)
    · simp only [Memory.risingFrom, Bool.and_eq_true, decide_eq_true_eq]
      exact ⟨hm.1, ih hm.2⟩

theorem mem_insert {m : Memory} {a : Nat} {v : Word} {e : Nat × Word} (h : e ∈ m.insert a v) :
    e = (a, v) ∨ e ∈ m := by
  induction m with
  | nil => simpa [Memory.insert] using h
  | cons f rest ih =>
    obtain ⟨k, u⟩ := f
    simp only [Memory.insert] at h
    split at h
    · simpa using h
    · split at h
      · simp only [List.mem_cons] at h ⊢
        exact h.imp id .inr
      · simp only [List.mem_cons] at h ⊢
        rcases h with h | h
        · exact .inr (.inl h)
        · rcases ih h with h | h
          · exact .inl h
          · exact .inr (.inr h)

theorem mem_erase {m : Memory} {a : Nat} {e : Nat × Word} (h : e ∈ m.erase a) : e ∈ m := by
  induction m with
  | nil => exact h
  | cons f rest ih =>
    obtain ⟨k, u⟩ := f
    simp only [Memory.erase] at h
    split at h
    · exact List.mem_cons_of_mem _ (ih h)
    · simp only [List.mem_cons] at h ⊢
      exact h.imp id ih

/-- Every data-memory write keeps the canonical form. -/
theorem Memory.wf_write {m : Memory} (hm : m.wf = true) (a v : Word) : (m.write a v).wf = true := by
  simp only [Memory.wf, Memory.rising, Bool.and_eq_true, List.all_eq_true, decide_eq_true_eq] at hm ⊢
  unfold Memory.write
  split
  · exact ⟨risingFrom_erase hm.1, fun e he => hm.2 e (mem_erase he)⟩
  · next hv =>
    refine ⟨risingFrom_insert hm.1 (Nat.zero_le _) a.isLt, fun e he => ?_⟩
    rcases mem_insert he with rfl | he
    · exact hv
    · exact hm.2 e he

/-- The host's placing of a word keeps the instruction memory's form. -/
theorem Memory.rising_insert {m : Memory} (hm : m.rising = true) (a v : Word) :
    Memory.rising (m.insert a.toNat v) = true := risingFrom_insert hm (Nat.zero_le _) a.isLt

theorem risingFrom_imageFrom (image : List Word) (a : Nat) (h : a + image.length ≤ Config.cells) :
    Memory.risingFrom a (imageFrom a image) = true := by
  induction image generalizing a with
  | nil => rfl
  | cons w ws ih =>
    simp only [List.length_cons] at h
    simp only [imageFrom, Memory.risingFrom, Bool.and_eq_true, decide_eq_true_eq]
    exact ⟨⟨Nat.le_refl _, by omega⟩, ih (a + 1) (by omega)⟩

theorem find?_imageFrom (image : List Word) (a b : Nat) :
    (imageFrom a image).find? b = if b < a then none else image[b - a]? := by
  induction image generalizing a with
  | nil => simp [imageFrom, Memory.find?]
  | cons w ws ih =>
    simp only [imageFrom, Memory.find?, ih]
    by_cases h : a = b
    · subst h; simp
    · by_cases hlt : b < a
      · simp [h, hlt, show b < a + 1 by omega]
      · have : b - a = b - (a + 1) + 1 := by omega
        simp [h, hlt, show ¬ b < a + 1 by omega, this]

/-! ## The shared shapes: what each answers -/

theorem writeBack_eq_next {d : Reg} {v : Word} {s t : State} :
    writeBack d v s = .next t ↔ (s.writeReg d v).advance = t := by simp [writeBack]

theorem load_eq_next {d : Reg} {ea : Word} {s t : State} :
    load d ea s = .next t ↔ (s.writeReg d (s.readCell ea)).advance = t := by simp [load, writeBack]

theorem store_eq_next {d : Reg} {ea : Word} {s t : State} :
    store d ea s = .next t ↔ (s.writeCell ea (s.readReg d)).advance = t := by simp [store]

theorem branch_eq_next {c : Bool} {target : Word} {s t : State} :
    branch c target s = .next t ↔ (if c then s.setPc target else s.advance) = t := by simp [branch]

end Sys2Proof.Machine
end

