-- ==== Sys2Proof/Laws/PerInstr.lean ====
section
/-! SUPPORT. One lemma per instruction: the encoder puts the instruction's opcode (30_encoding.md R70) in the field i0,
whatever the operands and parameters. -/

namespace Sys2Proof.Laws.OpcodeField

/-- The word's field i0 is the instruction's opcode. -/
def Statement (i : Instr) : Prop := ∀ p, field0 (encode p i) = i.opcode

theorem not (d s1 s2 : Reg) : Statement (.not d s1 s2) := fun _ => field0_assemble _ _ _ _
theorem add (d s1 s2 : Reg) : Statement (.add d s1 s2) := fun _ => field0_assemble _ _ _ _
theorem sub (d s1 s2 : Reg) : Statement (.sub d s1 s2) := fun _ => field0_assemble _ _ _ _
theorem or (d s1 s2 : Reg) : Statement (.or d s1 s2) := fun _ => field0_assemble _ _ _ _
theorem and (d s1 s2 : Reg) : Statement (.and d s1 s2) := fun _ => field0_assemble _ _ _ _
theorem beq (n : Int) (s1 s2 : Reg) : Statement (.beq n s1 s2) := fun _ => field0_assemble _ _ _ _
theorem bgt (n : Int) (s1 s2 : Reg) : Statement (.bgt n s1 s2) := fun _ => field0_assemble _ _ _ _
theorem bge (n : Int) (s1 s2 : Reg) : Statement (.bge n s1 s2) := fun _ => field0_assemble _ _ _ _
theorem addi (d s1 : Reg) (n : Int) : Statement (.addi d s1 n) := fun _ => field0_assemble _ _ _ _
theorem read (d s1 s2 : Reg) : Statement (.read d s1 s2) := fun _ => field0_assemble _ _ _ _
theorem write (d s1 s2 : Reg) : Statement (.write d s1 s2) := fun _ => field0_assemble _ _ _ _
theorem readi (d s1 : Reg) (n : Int) : Statement (.readi d s1 n) := fun _ => field0_assemble _ _ _ _
theorem writei (d s1 : Reg) (n : Int) : Statement (.writei d s1 n) := fun _ => field0_assemble _ _ _ _

end Sys2Proof.Laws.OpcodeField
end

