-- ==== Sys2Proof/Laws/Step.lean ====
section
/-! SUPPORT. What one instruction and one step can do, said once. -/

namespace Sys2Proof.Machine

/-- The kinds of next state an instruction can give, with what each writes. -/
inductive Effect (s t : State) : Prop where
  | register (d : Reg) (v : Word) (h : t = (s.writeReg d v).advance)
  | cell (a v : Word) (h : t = (s.writeCell a v).advance)
  | jump (n : Int) (h : t = s.setPc (s.pc + immWord n))
  | pcOnly (h : t = s.advance)

/-- The instruction's inversion lemma: a next state is one of the four effects. -/
theorem exec_effect {i : Instr} {s t : State} (h : exec i s = .next t) : Effect s t := by
  cases i <;> simp only [exec, execNot, execAdd, execSub, execOr, execAnd, execBeq, execBgt, execBge, execAddi, execRead,
    execWrite, execReadi, execWritei, writeBack_eq_next, load_eq_next, store_eq_next, branch_eq_next] at h
  case not => exact .register _ _ h.symm
  case add => exact .register _ _ h.symm
  case sub => exact .register _ _ h.symm
  case or => exact .register _ _ h.symm
  case and => exact .register _ _ h.symm
  case addi => exact .register _ _ h.symm
  case read => exact .register _ _ h.symm
  case readi => exact .register _ _ h.symm
  case write => exact .cell _ _ h.symm
  case writei => exact .cell _ _ h.symm
  all_goals
    split at h
    · exact .jump _ h.symm
    · exact .pcOnly h.symm

/-- What every effect leaves alone. -/
theorem Effect.imem_params {s t : State} (h : Effect s t) : t.imem = s.imem ∧ t.params = s.params := by
  cases h <;> subst_vars <;> simp

/-! ## The shared shapes: completion, result and frame in one lemma each -/

theorem writeBack_spec (d : Reg) (v : Word) (s : State) : ∃ t, writeBack d v s = .next t ∧
    t.readReg d = (if d = 0 then 0x0000#16 else v) ∧ t.pc = s.pc + 1#16 ∧ UnchangedBut (some d) none s t := by
  refine ⟨_, rfl, by simp [readReg_writeReg_self], by simp, fun r hr => ?_, fun b _ => by simp, by simp, by simp⟩
  exact (advance_readReg _ r).trans (readReg_writeReg_of_ne s v fun h => hr (congrArg some h))

theorem store_spec (d : Reg) (a : Word) (s : State) : ∃ t, store d a s = .next t ∧
    t.readCell a = s.readReg d ∧ t.pc = s.pc + 1#16 ∧ UnchangedBut none (some a) s t := by
  refine ⟨_, rfl, by simp, by simp, fun r _ => by simp, fun b hb => ?_, by simp, by simp⟩
  have hne : b ≠ a := fun h => hb (congrArg some h)
  simp [hne]

theorem branch_spec (c : Bool) (target : Word) (s : State) : ∃ t, branch c target s = .next t ∧
    t.pc = (if c then target else s.pc + 1#16) ∧ UnchangedBut none none s t := by
  refine ⟨_, rfl, ?_⟩
  cases c <;> exact ⟨rfl, fun r _ => by simp, fun b _ => by simp, rfl, rfl⟩

/-- The sum of a word and an immediate, as integers (00_scope.md R11). -/
theorem toNat_add_immWord (a : Word) (n : Int) : ((a + immWord n).toNat : Int) = ((a.toNat : Int) + n) % 65536 := by
  have h : max (n % 65536) 0 = n % 65536 := by omega
  simp [immWord, BitVec.toNat_add, BitVec.toNat_ofInt, h]

/-! ## Steps -/

theorem step_of_ok {s : State} {i : Instr} (h : fetchDecode s = .ok i) : step s = exec i s := by
  simp [step, h]

/-- The step's inversion lemma: a next state is the decoded instruction's. -/
theorem step_eq_next {s t : State} (h : step s = .next t) : ∃ i, fetchDecode s = .ok i ∧ exec i s = .next t := by
  unfold step at h
  split at h
  · next i hi => exact ⟨i, hi, h⟩
  · cases h

theorem step_effect {s t : State} (h : step s = .next t) : Effect s t :=
  let ⟨_, _, h⟩ := step_eq_next h
  exec_effect h

/-- Fetching and decoding see the cell at the pc, the pc and the parameters alone. -/
theorem fetchDecode_eq_ok {s : State} {i : Instr} :
    fetchDecode s = .ok i ↔ ∃ w, s.fetchCell s.pc = some w ∧ decode s.params w = .ok i := by
  unfold fetchDecode
  cases s.fetchCell s.pc with
  | none => simp
  | some w => cases h : decode s.params w <;> simp [h]

theorem fetchDecode_eq_error {s : State} {f : Fault} :
    fetchDecode s = .error f ↔
      (s.fetchCell s.pc = none ∧ f = .noInstruction s.pc) ∨
      ∃ w e, s.fetchCell s.pc = some w ∧ decode s.params w = .error e ∧ f = faultOf s.pc w e := by
  unfold fetchDecode
  cases s.fetchCell s.pc with
  | none => simp [eq_comm]
  | some w => cases h : decode s.params w <;> simp [h, eq_comm]

/-! ## Runs -/

@[simp] theorem runFor_zero (s : State) : runFor 0 s = .next s := rfl

/-- A run of one more step, by the step's answer. -/
theorem runFor_succ_of_next {s t : State} (n : Nat) (h : step s = .next t) : runFor (n + 1) s = runFor n t := by
  simp only [runFor, Host.Core.run, show Sys2Proof.core.step s = .next t from h]
  rfl

theorem runFor_succ_of_fault {s : State} {f : Fault} (n : Nat) (h : step s = .fault f) :
    runFor (n + 1) s = .fault f := by
  simp only [runFor, Host.Core.run, show Sys2Proof.core.step s = .fault f from h]
  rfl

theorem runFor_succ_of_refused {s : State} {r : Refusal} (n : Nat) (h : step s = .refused r) :
    runFor (n + 1) s = .refused r := by
  simp only [runFor, Host.Core.run, show Sys2Proof.core.step s = .refused r from h]
  rfl

/-- A run that goes on for `n + 1` steps is a step and a run of `n`. -/
theorem runFor_succ_eq_next {s t : State} {n : Nat} (h : runFor (n + 1) s = .next t) :
    ∃ u, step s = .next u ∧ runFor n u = .next t := by
  cases hs : step s with
  | next u => exact ⟨u, rfl, by rw [← runFor_succ_of_next n hs, h]⟩
  | fault f => rw [runFor_succ_of_fault n hs] at h; cases h
  | refused r => rw [runFor_succ_of_refused n hs] at h; cases h

end Sys2Proof.Machine
end

