-- ==== Sys2Proof/Laws/Translator.lean ====
section
/-! SUPPORT. The small lemmas of the host's files, and what the translator's command can do, said once. -/

namespace Sys2Proof.Machine

@[simp] theorem find?_save_self (files : Files) (name : Text) (c : FileContent) :
    (files.save name c).find? name = some c := by
  induction files with
  | nil => simp [Files.save, Files.find?]
  | cons e rest ih =>
    obtain ⟨n, d⟩ := e
    by_cases h : n = name <;> simp [Files.save, Files.find?, h, ih]

theorem find?_save_of_ne (files : Files) {name other : Text} (c : FileContent) (h : other ≠ name) :
    (files.save name c).find? other = files.find? other := by
  induction files with
  | nil => simp [Files.save, Files.find?, h.symm]
  | cons e rest ih =>
    obtain ⟨n, d⟩ := e
    by_cases hn : n = name
    · subst hn; simp [Files.save, Files.find?, h.symm]
    · simp [Files.save, Files.find?, hn, ih]

@[simp] theorem image?_save_self (files : Files) (name : Text) (ws : List Word) :
    (files.save name (.image ws)).image? name = some ws := by simp [Files.image?]

theorem program?_eq_some {files : Files} {name : Text} {lines : List Text} :
    files.program? name = some lines ↔ files.find? name = some (.program lines) := by
  unfold Files.program?
  cases files.find? name with
  | none => simp
  | some c => cases c <;> simp

/-- A command that ends has read a program and saved the words of its instructions. -/
theorem run_eq_some {p : Params} {c : CommandLine} {files files' : Files} :
    c.run p files = some files' ↔ ∃ lines is, files.find? c.source = some (.program lines) ∧
      parseProgram lines = some is ∧ files' = files.save c.outputName (.image (is.map (encode p))) := by
  simp only [CommandLine.run, translateProgram, Option.bind_eq_some_iff, Option.map_eq_some_iff, program?_eq_some]
  constructor
  · rintro ⟨lines, hl, _, ⟨is, hi, rfl⟩, rfl⟩
    exact ⟨lines, is, hl, hi, rfl⟩
  · rintro ⟨lines, is, hl, hi, rfl⟩
    exact ⟨lines, hl, _, ⟨is, hi, rfl⟩, rfl⟩

/-- The two forms of the command. -/
@[simp] theorem runCommand_both (p : Params) (f o : Text) (files : Files) :
    runCommand p [translatorName, f, o] files = CommandLine.run p ⟨f, some o⟩ files := by
  simp [runCommand, parseArguments]

@[simp] theorem runCommand_source (p : Params) (f : Text) (files : Files) :
    runCommand p [translatorName, f] files = CommandLine.run p ⟨f, none⟩ files := by
  simp [runCommand, parseArguments]

end Sys2Proof.Machine
end

