-- ==== Sys2Proof/Tests/Slice0.lean ====
section
/-! SUPPORT. Tests. Expected results are the spec's own vectors (95_test_vectors.md, the id in each name or comment) or
are worked out by hand from the rule named; none is the model's own answer. -/

namespace Sys2Proof.Tests

open Sys2Proof Sys2Proof.Machine

/-! ## Helpers -/

/-- Two's complement, signed, datapath: the defaults of 00_scope.md R9. -/
def tc : Params := { immDecode := .twosComplement, cmp := .signed, notS2 := .datapath }
/-- The other candidate readings. -/
def sm : Params := { immDecode := .signMagnitude, cmp := .unsigned, notS2 := .refuse }

/-- A state with the given registers, pc and one data cell. -/
def mk (pc : Word) (regs : List (Reg × Word)) (cell : Word × Word := (0, 0)) (p : Params := tc) : State :=
  regs.foldl (fun s e => s.writeReg e.1 e.2)
    ({ State.reset with params := p, pc := pc }.writeCell cell.1 cell.2)

/-- The state after one step on the word at the pc. -/
def after (s : State) (w : Nat) : Option State :=
  match step (s.withFetchWord 16 w) with
  | .next t => some t
  | .fault _ => none
  | .refused _ => none

/-- The fault of one step on the word at the pc. -/
def faultAfter (s : State) (w : Nat) : Option Fault :=
  match step (s.withFetchWord 16 w) with
  | .next _ => none
  | .fault f => some f
  | .refused _ => none

/-- One register and the pc after one step. -/
def regPc (s : State) (w : Nat) (r : Reg) : Option (Word × Word) := (after s w).map fun t => (t.readReg r, t.pc)

/-- One data cell and the pc after one step. -/
def cellPc (s : State) (w : Nat) (a : Word) : Option (Word × Word) := (after s w).map fun t => (t.readCell a, t.pc)

/-! ## WellFormed refuses ill-formed terms (30_encoding.md R66, R72) -/

theorem test_wf_imm_8 : (Instr.addi 1 1 8).wellFormed tc = false := by decide
theorem test_wf_imm_minus_8 : (Instr.addi 1 1 (-8)).wellFormed tc = false := by decide
theorem test_wf_readi : (Instr.readi 1 1 9).wellFormed tc = false := by decide
theorem test_wf_writei : (Instr.writei 1 1 (-9)).wellFormed tc = false := by decide
theorem test_wf_beq : (Instr.beq 8 1 1).wellFormed tc = false := by decide
theorem test_wf_bgt : (Instr.bgt (-8) 1 1).wellFormed tc = false := by decide
theorem test_wf_bge : (Instr.bge 100 1 1).wellFormed tc = false := by decide
theorem test_wf_not_refuse : (Instr.not 3 1 2).wellFormed sm = false := by decide
theorem test_wf_not_datapath : (Instr.not 3 1 2).wellFormed tc = true := by decide
theorem test_wf_not_documented : (Instr.not 3 1 0).wellFormed sm = true := by decide

/-! ## Decoding: the words of 95_test_vectors.md 2.1, both readings of a negative immediate -/

theorem test_decode_not : decode tc 0x0AB0#16 = .ok (.not 10 11 0) := by decide
theorem test_decode_add : decode tc 0x1123#16 = .ok (.add 1 2 3) := by decide
theorem test_decode_sub : decode tc 0x2FED#16 = .ok (.sub 15 14 13) := by decide
theorem test_decode_or : decode tc 0x3456#16 = .ok (.or 4 5 6) := by decide
theorem test_decode_and : decode tc 0x4789#16 = .ok (.and 7 8 9) := by decide
theorem test_decode_beq : decode tc 0x5F12#16 = .ok (.beq (-1) 1 2) := by decide
theorem test_decode_beq_sm : decode sm 0x5912#16 = .ok (.beq (-1) 1 2) := by decide
theorem test_decode_bgt : decode tc 0x69FE#16 = .ok (.bgt (-7) 15 14) := by decide
theorem test_decode_bge : decode tc 0x73C0#16 = .ok (.bge 3 12 0) := by decide
theorem test_decode_addi : decode tc 0x834A#16 = .ok (.addi 3 4 (-6)) := by decide
theorem test_decode_addi_sm : decode sm 0x834E#16 = .ok (.addi 3 4 (-6)) := by decide
theorem test_decode_read : decode tc 0x9ABC#16 = .ok (.read 10 11 12) := by decide
theorem test_decode_write : decode tc 0xAABC#16 = .ok (.write 10 11 12) := by decide
theorem test_decode_readi : decode tc 0xB56E#16 = .ok (.readi 5 6 (-2)) := by decide
theorem test_decode_writei : decode tc 0xCF87#16 = .ok (.writei 15 8 7) := by decide
/-- X6: 1000 in a register field is r8. -/
theorem test_decode_r8 : decode tc 0x1808#16 = .ok (.add 8 0 8) := by decide
theorem test_encode_dec_sm : encode sm (.addi 3 3 (-1)) = 0x8339#16 := by decide
theorem test_table_word : decodeTableWord 16 0xCF87 = some (.writei 15 8 7) := by decide

/-! ## Instructions: 95_test_vectors.md sections 2.3 to 2.6 -/

theorem test_not_V1 : regPc (mk 4 [(1, 0x00FF)]) 0x0210 2 = some (0xFF00#16, 5#16) := by decide
theorem test_not_V5 : regPc (mk 0 [(1, 5), (2, 3)]) 0x0312 3 = some (0xFFF7#16, 1#16) := by decide
theorem test_add_V7 : regPc (mk 0 [(1, 0x8000)]) 0x1111 1 = some (0x0000#16, 1#16) := by decide
theorem test_add_V10 : regPc (mk 0 [(1, 5), (2, 7)]) 0x1012 0 = some (0x0000#16, 1#16) := by decide
theorem test_sub_V11 : regPc (mk 0 [(1, 5), (2, 7)]) 0x2312 3 = some (0xFFFE#16, 1#16) := by decide
theorem test_sub_V13 : regPc (mk 0 [(1, 0x8000)]) 0x2101 1 = some (0x8000#16, 1#16) := by decide
theorem test_or_V16 : regPc (mk 0 [(1, 0x0F0F), (2, 0x00FF)]) 0x3312 3 = some (0x0FFF#16, 1#16) := by decide
theorem test_and_V17 : regPc (mk 0 [(1, 0x0F0F), (2, 0x00FF)]) 0x4312 3 = some (0x000F#16, 1#16) := by decide
theorem test_and_V18 : regPc (mk 0 [(1, 0x0F0F), (3, 0x9999)]) 0x4310 3 = some (0x0000#16, 1#16) := by decide
theorem test_beq_B6 : regPc (mk 2 []) 0x5B00 0 = some (0#16, 0xFFFD#16) := by decide
theorem test_beq_B2 : regPc (mk 2 [(1, 3)]) 0x5410 1 = some (3#16, 3#16) := by decide
theorem test_bgt_B12_signed : regPc (mk 16 [(1, 0x7FFF), (2, 0x8000)]) 0x6312 1 = some (0x7FFF#16, 0x0013#16) := by decide
theorem test_bgt_B12_unsigned :
    regPc (mk 16 [(1, 0x7FFF), (2, 0x8000)] (0, 0) sm) 0x6312 1 = some (0x7FFF#16, 0x0011#16) := by decide
theorem test_bge_B14 : regPc (mk 1 []) 0x7210 1 = some (0#16, 3#16) := by decide
theorem test_bge_B15_signed : regPc (mk 1 [(1, 0xFFFB)]) 0x7210 1 = some (0xFFFB#16, 2#16) := by decide
theorem test_addi_A2 : regPc (mk 0 [(1, 5)]) 0x811F 1 = some (4#16, 1#16) := by decide
theorem test_addi_A5_sm : regPc (mk 0 [] (0, 0) sm) 0x810F 1 = some (0xFFF9#16, 1#16) := by decide
theorem test_read_M3 :
    regPc (mk 0 [(1, 0xFFFF), (2, 2)] (1, 0xABCD)) 0x9312 3 = some (0xABCD#16, 1#16) := by decide
theorem test_read_M2 : regPc (mk 0 [(1, 0x10)] (0x10, 0x1234)) 0x9110 1 = some (0x1234#16, 1#16) := by decide
theorem test_write_M4 : cellPc (mk 0 [(2, 2), (4, 0x000E)]) 0xA422 4 = some (0x000E#16, 1#16) := by decide
theorem test_write_M5 : cellPc (mk 0 [(1, 0x20)] (0x20, 0x5555)) 0xA010 0x20 = some (0#16, 1#16) := by decide
theorem test_readi_M8 : regPc (mk 0 [] (0xFFFF, 0x0042)) 0xB10F 1 = some (0x0042#16, 1#16) := by decide
theorem test_readi_M7_base : regPc (mk 0 [(2, 2)] (4, 0x000E)) 0xB722 2 = some (2#16, 1#16) := by decide
theorem test_writei_M10 : cellPc (mk 0 [(1, 1), (2, 0xBEEF)]) 0xC21E 0xFFFF = some (0xBEEF#16, 1#16) := by decide
theorem test_writei_M9 : cellPc (mk 0 [(1, 0x000E)]) 0xC103 3 = some (0x000E#16, 1#16) := by decide
/-- V4, A8 and M11: with destination r0 nothing but the pc changes. -/
theorem test_idle_V4 : after (mk 4 []) 0x0000 = some ((mk 4 []).withFetchWord 16 0).advance := by decide

/-! ## Model faults: 95_test_vectors.md 2.8 -/

theorem test_fault_X1 : faultAfter (mk 7 []) 0xD000 = some (.illegalOpcode 7 0xD000) := by decide
theorem test_fault_X3 : faultAfter (mk 7 []) 0xFFFF = some (.illegalOpcode 7 0xFFFF) := by decide
theorem test_fault_X4 : faultAfter (mk 7 []) 0x8108 = some (.reservedImmediate 7 0x8108) := by decide
theorem test_fault_X5 : faultAfter (mk 7 []) 0x5800 = some (.reservedImmediate 7 0x5800) := by decide
theorem test_fault_X7 : faultAfter (mk 7 [] (0, 0) sm) 0x0312 = some (.undocumentedForm 7 0x0312) := by decide
/-- U4: under sign and magnitude 1000 is 0 and nothing stops. -/
theorem test_no_fault_sm : regPc (mk 0 [(1, 9)] (0, 0) sm) 0x8218 2 = some (9#16, 1#16) := by decide
/-- X8: the second fetch finds no instruction. -/
theorem test_fault_X8 : ((after (mk 0 []) 0x8105).map step).map (fun o => match o with
    | .fault f => some f
    | .next _ => none
    | .refused _ => none) = some (some (.noInstruction 1)) := by decide

/-! ## Datapath, pseudo-instructions, assembly -/

/-- R150's row of `writei`. -/
theorem test_signals_writei : decoder 0b1100#4 = some (signalRow true false true false false false) := by decide
theorem test_datapath_M9 :
    (datapathCycle (mk 0 [(1, 0x000E)]) 0xC103#16).map (fun t => (t.readCell 3, t.pc)) = some (0x000E#16, 1#16) := by
  decide
/-- 95_test_vectors.md 1.4: the source's own line. -/
theorem test_source_line :
    parseLine "move r1 r2 # esto es un comentario después de una instrucción".toList = some (.code (.add 1 2 0)) := by
  decide
theorem test_comment_line : parseLine "# esto es una línea de comentario".toList = some .empty := by decide
/-- 95_test_vectors.md 2.7. -/
theorem test_dec_word : (translateProgram tc ["-- r3".toList, "".toList, "idle".toList]) = some [0x833F#16, 0x0000#16] := by
  decide
/-- D21: an immediate outside -7 to 7, an unsigned one, and `not` with another third operand are refused. -/
theorem test_refused_lines :
    parseLine "+i r1 r0 +8".toList = none ∧ parseLine "+i r1 r0 5".toList = none ∧ parseLine "not r1 r2 r3".toList = none ∧
    parseLine "+ r1 r2 r16".toList = none := by decide
theorem test_spelling : lineText (.bge (-7) 12 0) = ">= -7 r12 r0".toList := by decide
/-- 30_encoding.md R86. -/
theorem test_arguments : parseArguments [] = none ∧
    parseArguments ["a".toList, "b".toList] = some { source := "a".toList, output := some "b".toList } := by decide
/-- A directory with one program. -/
def files : Files := [("f.mono".toList, .program ["-- r3 # baja".toList, "# fin".toList, "= +0 r0 r0".toList])]
/-- R86 and 95_test_vectors.md 2.1 and 2.7: the words are saved under the output's name and the source is kept. -/
theorem test_translator :
    ((runCommand tc ["monociclo".toList, "f.mono".toList, "o.txt".toList] files).map fun fs =>
      (fs.image? "o.txt".toList, fs.program? "f.mono".toList)) =
      some (some [0x833F#16, 0x5000#16], files.program? "f.mono".toList) := by decide
/-- R86: no source file, an image for a source, too few arguments, another command. -/
theorem test_translator_refuses :
    runCommand tc ["monociclo".toList, "g.mono".toList, "o.txt".toList] files = none ∧
    runCommand tc ["monociclo".toList, "a".toList, "b".toList] [("a".toList, .image [])] = none ∧
    runCommand tc ["monociclo".toList] files = none ∧
    runCommand tc ["otro".toList, "f.mono".toList, "o.txt".toList] files = none := by decide

/-! ## The canonical form of the data memory -/

theorem test_write_keeps_order : (Memory.write [(1, 5), (9, 6)] 4 7) = [(1, 5#16), (4, 7#16), (9, 6#16)] := by decide
theorem test_write_zero_unlists : (Memory.write [(1, 5), (9, 6)] 9 0) = [(1, 5#16)] := by decide
theorem test_wf_refuses : Memory.wf [(9, 6), (1, 5)] = false ∧ Memory.wf [(1, 0)] = false ∧ Memory.wf [(65536, 1)] = false := by
  decide

/-! ## Witnesses: the hypotheses of the statements can be met -/

/-- The state of the witnesses: 0x0312 at the pc. -/
def notForm (p : Params) : State := (mk 0 [(1, 5), (2, 3)] (0, 0) p).withFetchWord 16 0x0312

theorem witness_NotUndocumentedFormFollowsPolicy :
    ∀ p ∈ [tc, sm], (notForm p).fetchCell (notForm p).pc =
      some (assemble 0b0000#4 (regField 3) (regField 1) (regField 2)) ∧ (2 : Reg) ≠ 0 := by decide
theorem witness_NotUndocumentedFormFollowsPolicy_policies :
    (notForm tc).params.notS2 = .datapath ∧ (notForm sm).params.notS2 = .refuse := by decide
/-- The branch statements: an immediate in range at each end, its field, and both readings of the comparison. -/
theorem witness_Branches :
    immInRange (-7) = true ∧ immInRange 7 = true ∧ immediate tc.immDecode 0b1001#4 = some (-7) ∧
    immediate tc.immDecode 0b0111#4 = some 7 ∧ immediate sm.immDecode 0b1111#4 = some (-7) ∧
    (mk 0 [] (0, 0) tc).params.cmp = .signed ∧ (mk 0 [] (0, 0) sm).params.cmp = .unsigned := by decide
theorem witness_DestinationR0ChangesOnlyThePc :
    Instr.add 0 1 2 ∈ [Instr.not 0 1 2, .add 0 1 2, .sub 0 1 2, .or 0 1 2, .and 0 1 2, .addi 0 1 7, .read 0 1 2,
      .readi 0 1 7] := by decide
/-- For each enable signal an instruction that lacks it and completes. -/
theorem witness_EnableSignalsGateEveryWrite :
    (∃ t, exec (.write 1 2 3) (mk 0 []) = .next t) ∧ (∃ t, exec (.beq 1 0 0) (mk 0 []) = .next t) ∧
    (decoder (Instr.write 1 2 3).opcode).map (·.registerWriteEnable) = some false ∧
    (decoder (Instr.beq 1 0 0).opcode).map (·.memoryWriteEnable) = some false ∧
    (decoder (Instr.write 1 2 3).opcode).map (·.jumpEnable) = some false := ⟨⟨_, rfl⟩, ⟨_, rfl⟩, by decide⟩
/-- A step that jumps and one that does not. -/
theorem witness_PcMovesByOneOrByTheBranchOffset :
    ((after (mk 0xFFFC []) 0x5700).map (·.pc)) = some 3#16 ∧ ((after (mk 0xFFFF []) 0x0000).map (·.pc)) = some 0#16 := by
  decide
theorem witness_InstructionMemoryIsOutOfReach :
    (∃ t, runFor 1 ((mk 0 []).withFetchWord 16 0x8105) = .next t) ∧ (∃ t, exec (.addi 1 0 5) (mk 0 []) = .next t) :=
  ⟨⟨_, rfl⟩, ⟨_, rfl⟩⟩
/-- Equal and different addresses. -/
theorem witness_LoadAfterStoreSeesTheStore :
    (Instr.writei 1 0 3, eaRegImm (mk 0 []) 0 3) ∈
      [(Instr.write 1 0 0, eaRegReg (mk 0 []) 0 0), (.writei 1 0 3, eaRegImm (mk 0 []) 0 3)] ∧
    (Instr.readi 5 0 3, eaRegImm (mk 0 []) 0 3) ∈
      [(Instr.read 5 0 0, eaRegReg (mk 0 []) 0 0), (.readi 5 0 3, eaRegImm (mk 0 []) 0 3)] ∧
    eaRegReg (mk 0 []) 0 0 ≠ eaRegImm (mk 0 []) 0 3 := by decide
theorem witness_StepRunsTheDecodedInstruction :
    ((mk 0 []).withFetchWord 16 0x8105).fetchCell 0 = some 0x8105#16 ∧ decode tc 0x8105#16 = .ok (.addi 1 0 5) := by decide
/-- The listed stops at the edges of their ranges: 0xD000 and the word before it, each reserved field, the
undocumented form, a word that runs, and a cell with no value. -/
theorem witness_StepStopsExactlyAsListed :
    (mk 0 []).fetchCell 0 = none ∧
    faultAfter (mk 0 []) 0xD000 = some (.illegalOpcode 0 0xD000) ∧ (after (mk 0 []) 0xCFFF).isSome = true ∧
    faultAfter (mk 0 []) 0xCFF8 = some (.reservedImmediate 0 0xCFF8) ∧
    faultAfter (mk 0 []) 0x78FF = some (.reservedImmediate 0 0x78FF) ∧
    (after (mk 0 [] (0, 0) sm) 0xCFF8).isSome = true ∧ (after (mk 0 []) 0x4888).isSome = true ∧
    faultAfter (mk 0 [] (0, 0) sm) 0x0001 = some (.undocumentedForm 0 0x0001) ∧
    (after (mk 0 [] (0, 0) sm) 0x0FF0).isSome = true := by decide
theorem witness_PlacedWordRunsNext :
    decode (mk 0 []).params (tableWord 16 0x1123) = .ok (.add 1 2 3) ∧ (5 : Word) ≠ (mk 0 []).pc := by decide
theorem witness_DecodeOfEncodeIsTheInstruction :
    (Instr.bge (-7) 1 2).wellFormed tc = true ∧ (Instr.writei 15 8 7).wellFormed sm = true := by decide
/-- A word that is encoded back, and the second zero of sign and magnitude, which is not. -/
theorem witness_EncodeOfDecodeIsTheWord :
    decode tc 0x834A#16 = .ok (.addi 3 4 (-6)) ∧ decode sm 0x8348#16 = .ok (.addi 3 4 0) ∧
    encode sm (.addi 3 4 0) ≠ 0x8348#16 := by decide
theorem witness_DecodedInstructionIsWellFormed : decode tc 0x69FE#16 = .ok (.bgt (-7) 15 14) := by decide
theorem witness_IllegalOpcodesAreExactlyTheTopThree :
    decode tc 0xD000#16 = .error .illegalOpcode ∧ decode tc 0xCFFF#16 = .ok (.writei 15 15 (-1)) := by decide
theorem witness_ImmediateTable :
    immediate .twosComplement 7#4 = some 7 ∧ immediate .twosComplement 8#4 = none ∧
    immediate .twosComplement 9#4 = some (-7) ∧ immediate .signMagnitude 8#4 = some 0 ∧
    immediate .signMagnitude 9#4 = some (-1) := by decide
/-- A step from a state in canonical form that lists a cell. -/
theorem witness_StepKeepsTheInvariant :
    (mk 0 [] (3, 9)).Inv ∧ (after (mk 0 [] (3, 9)) 0xC103).isSome = true := by unfold State.Inv; decide
theorem witness_RunKeepsThePremises :
    ((mk 0 [] (3, 9)).withFetchWord 16 0xC103).Inv ∧ ParamsFixed tc (mk 0 []) := by
  unfold State.Inv ParamsFixed; decide
theorem witness_RunKeepsThePremises_next : ∃ t, runFor 1 ((mk 0 [] (3, 9)).withFetchWord 16 0xC103) = .next t := ⟨_, rfl⟩
theorem witness_DatapathAgreesWithTheInstruction : decode (mk 0 []).params 0xC103#16 = .ok (.writei 1 0 3) := by decide
theorem witness_ControlSignalInvariants :
    decoder 0b1100#4 ≠ none ∧ decoder 0b1101#4 = none ∧ (decoder 0b1011#4).map (·.memoryReadEnable) = some true := by decide
theorem witness_ComparisonLaws :
    condGt .signed 0x7FFF 0x8000 = true ∧ condGt .unsigned 0x7FFF 0x8000 = false ∧
    condGt .signed 0x7FFF 0x0000 = condGt .unsigned 0x7FFF 0x0000 := by decide
/-- A terminal state (B3), and a self-branch that is not taken. -/
theorem witness_TerminalStates :
    ((mk 9 []).withFetchWord 16 0x5000).terminal = true ∧ ((mk 9 []).withFetchWord 16 0x6000).terminal = false ∧
    ((mk 9 []).withFetchWord 16 0x7000).terminal = true ∧ ((mk 9 []).withFetchWord 16 0x5100).terminal = false := by decide
theorem witness_CanonicalStopIsTakenInEveryState :
    ((mk 9 []).withFetchWord 16 0x5000).fetchCell 9 = some 0x5000#16 := by decide
theorem witness_TerminalStatesOfARunAgree :
    runFor 0 ((mk 9 []).withFetchWord 16 0x5000) = .next ((mk 9 []).withFetchWord 16 0x5000) ∧
    runFor 2 ((mk 9 []).withFetchWord 16 0x5000) = .next ((mk 9 []).withFetchWord 16 0x5000) := ⟨rfl, rfl⟩
/-- An image moved by one cell. -/
theorem witness_RunsArePositionIndependent :
    ShiftedBy 1 State.reset { State.reset with pc := 1 } ∧ ∃ f, runFor 1 State.reset = .fault f :=
  ⟨⟨rfl, rfl, rfl, rfl, fun _ => rfl⟩, ⟨_, rfl⟩⟩
/-- The same with a run that goes on: `+i r1 r0 5` at 0 and at 1. -/
theorem witness_RunsArePositionIndependent_next :
    (∃ t, runFor 1 ((mk 0 []).withFetchWord 16 0x8105) = .next t) ∧
    (∃ t, runFor 1 ((mk 1 []).withFetchWord 16 0x8105) = .next t) := ⟨⟨_, rfl⟩, ⟨_, rfl⟩⟩
/-- An image of the full size, one that is a cell too long, and data in canonical form. -/
theorem witness_BootEstablishesThePremises :
    (List.replicate 65536 (0x0000#16)).length ≤ 65536 ∧ 65536 < (List.replicate 65537 (0x0000#16)).length ∧
    Memory.wf [(3, 9)] = true := ⟨Nat.le_of_eq List.length_replicate, by rw [List.length_replicate]; decide, by decide⟩
/-- `+i r1 r0 5` and the stop idiom, booted, and the state after the first of the two. -/
def booted : State := { State.reset with imem := [(0, 0x8105), (1, 0x5000)] }
def bootedNext : State := { booted with pc := 1, x := booted.x.set 0 5 }
theorem witness_BootedRunMeetsThePremises :
    boot tc (Vector.replicate 15 0) [] [0x8105, 0x5000] = some booted ∧ NoFaultFor 1 booted := ⟨by decide, ⟨_, rfl⟩⟩
/-- A run that meets every premise for one step; `later` is what is seen after it, of which nothing is said. -/
theorem witness_PremisesDetermineTheRun (later : State) :
    RunPremises tc (Vector.replicate 15 0) [] [0x8105, 0x5000] 1
      fun k => match k with | 0 => booted | 1 => bootedNext | _ => later where
  params_fixed := rfl
  entry_at_reset_pc := rfl
  image_loaded := by
    refine ⟨fun a => ?_, fun k hk => ?_⟩
    · simp only [State.fetchCell, booted, Memory.find?]
      rcases a.toNat with _ | _ | n <;> simp
    · obtain rfl : k = 0 := by omega
      exact show (0x0000#16).toNat < 2 by decide
  r0_zero := rfl
  regs_unwritten := rfl
  dmem_as_given := rfl
  no_fault_recorded := ⟨_, rfl⟩
  host_passive := by
    intro k hk t h
    obtain rfl : k = 0 := by omega
    exact Host.Outcome.next.inj ((show step booted = .next bootedNext from rfl).symm.trans h)
theorem witness_PassiveHostSeesTheMachinesRun :
    ∃ run : Nat → State, HostPassive 1 run ∧ NoFaultFor 1 (run 0) :=
  ⟨_, (witness_PremisesDetermineTheRun State.reset).host_passive,
    (witness_PremisesDetermineTheRun State.reset).no_fault_recorded⟩
theorem witness_AssemblyLineRoundTrip :
    (Instr.not 1 2 0).wellFormed { initialParams with notS2 := .refuse } = true ∧
    (Instr.beq (-7) 1 2).wellFormed { initialParams with notS2 := .refuse } = true := by decide
theorem witness_ShortSpellings :
    shortSpelling (.not 0 0 0) = some .idle ∧ expand .idle = .not 0 0 0 ∧ Pseudo.idle ≠ .notSelf 0 := by decide
theorem witness_TranslatedWordsAllDecode : translateProgram tc ["= +0 r0 r0".toList] = some [0x5000#16] := by decide
theorem witness_TranslatorSavesTheProgramsWords :
    files.find? "f.mono".toList = some (.program ["-- r3 # baja".toList, "# fin".toList, "= +0 r0 r0".toList]) ∧
    parseProgram ["-- r3 # baja".toList, "# fin".toList, "= +0 r0 r0".toList] =
      some [.addi 3 3 (-1), .beq 0 0 0] := by decide
theorem witness_TranslatedFileLoadsAsItsInstructions :
    (runCommand tc [translatorName, "f.mono".toList, "o.txt".toList] files).isSome = true ∧
    [Instr.addi 3 3 (-1), .beq 0 0 0].length ≤ 65536 := by decide

end Sys2Proof.Tests
end

section
/-! The instruction memory is out of an instruction's reach (10_state.md R30): a run keeps it, and no meaning reads it. -/

namespace Sys2Proof.Machine

/-! ## Runs -/

/-- What every step keeps, every run keeps: the induction on the run's length. -/
theorem runFor_keeps {P : State → Prop} (hstep : ∀ {s t : State}, step s = .next t → P s → P t) {n : Nat} {s t : State}
    (h : runFor n s = .next t) (hs : P s) : P t := by
  induction n generalizing s with
  | zero => cases h; exact hs
  | succ n ih =>
    obtain ⟨u, hu, hrun⟩ := runFor_succ_eq_next h
    exact ih hrun (hstep hu hs)

theorem step_imem {s t : State} (h : step s = .next t) : t.imem = s.imem := (step_effect h).imem_params.1

theorem runFor_imem {n : Nat} {s t : State} (h : runFor n s = .next t) : t.imem = s.imem :=
  runFor_keeps (P := fun u => u.imem = s.imem) (fun hstep hu => (step_imem hstep).trans hu) h rfl

/-! ## Another instruction memory in the same state -/

/-- The state with another instruction memory and everything else as it is. -/
def State.withImem (s : State) (m : Memory) : State := { s with imem := m }

@[simp] theorem withImem_params (s : State) (m : Memory) : (s.withImem m).params = s.params := rfl
@[simp] theorem withImem_readReg (s : State) (m : Memory) (r : Reg) : (s.withImem m).readReg r = s.readReg r :=
  readReg_congr rfl r
@[simp] theorem withImem_readCell (s : State) (m : Memory) (a : Word) : (s.withImem m).readCell a = s.readCell a := rfl

theorem withImem_writeReg (s : State) (m : Memory) (d : Reg) (v : Word) :
    (s.withImem m).writeReg d v = (s.writeReg d v).withImem m := by
  obtain ⟨_ | _, _⟩ := d <;> rfl
theorem withImem_writeCell (s : State) (m : Memory) (a v : Word) :
    (s.withImem m).writeCell a v = (s.writeCell a v).withImem m := rfl
theorem withImem_setPc (s : State) (m : Memory) (t : Word) :
    (s.withImem m).setPc t = (s.setPc t).withImem m := rfl
theorem withImem_advance (s : State) (m : Memory) : (s.withImem m).advance = s.advance.withImem m := rfl

@[simp] theorem withImem_eaRegReg (s : State) (m : Memory) (s1 s2 : Reg) :
    eaRegReg (s.withImem m) s1 s2 = eaRegReg s s1 s2 := by simp [eaRegReg]
@[simp] theorem withImem_eaRegImm (s : State) (m : Memory) (s1 : Reg) (n : Int) :
    eaRegImm (s.withImem m) s1 n = eaRegImm s s1 n := by simp [eaRegImm]
@[simp] theorem withImem_branchTarget (s : State) (m : Memory) (n : Int) :
    branchTarget (s.withImem m) n = branchTarget s n := rfl

/-! ## The shared shapes and the instructions commute with the change -/

section
variable {s t : State} (m : Memory)

theorem writeBack_withImem {d : Reg} {v : Word} (h : writeBack d v s = .next t) :
    writeBack d v (s.withImem m) = .next (t.withImem m) := by
  rw [writeBack_eq_next] at h ⊢
  rw [withImem_writeReg, withImem_advance, h]

theorem load_withImem {d : Reg} {ea : Word} (h : load d ea s = .next t) :
    load d ea (s.withImem m) = .next (t.withImem m) := by
  rw [load, withImem_readCell]
  exact writeBack_withImem m h

theorem store_withImem {d : Reg} {ea : Word} (h : store d ea s = .next t) :
    store d ea (s.withImem m) = .next (t.withImem m) := by
  rw [store_eq_next] at h ⊢
  rw [withImem_readReg, withImem_writeCell, withImem_advance, h]

theorem branch_withImem {c : Bool} {target : Word} (h : branch c target s = .next t) :
    branch c target (s.withImem m) = .next (t.withImem m) := by
  rw [branch_eq_next] at h ⊢
  rw [withImem_setPc, withImem_advance, ← h]
  cases c <;> rfl

/-- Every operand an instruction reads is the same under another instruction memory, so its shared shape runs on the same
values. -/
theorem exec_withImem {i : Instr} (h : exec i s = .next t) : exec i (s.withImem m) = .next (t.withImem m) := by
  cases i <;> simp only [exec, execNot, execAdd, execSub, execOr, execAnd, execBeq, execBgt, execBge, execAddi, execRead,
    execWrite, execReadi, execWritei, withImem_readReg, withImem_eaRegReg, withImem_eaRegImm, withImem_branchTarget,
    withImem_params] at h ⊢
  case not | add | sub | or | and | addi => exact writeBack_withImem m h
  case read | readi => exact load_withImem m h
  case write | writei => exact store_withImem m h
  case beq | bgt | bge => exact branch_withImem m h

end

/-- Settles O19: a run keeps the instruction memory because every step does, and an instruction runs the same under any
instruction memory because none of its operands is read there. -/
theorem instructionMemoryIsOutOfReach : Obligations.InstructionMemoryIsOutOfReach :=
  ⟨fun _ _ _ h => runFor_imem h, fun _ _ _ m h => exec_withImem m h⟩

end Sys2Proof.Machine
end

section
/-! The bitwise ALU instructions `or` and `and` (40_alu_register.md R103, R104). What the register instructions share is
said once: how a line of format R is read, and the bits that a write back leaves in its destination. -/

namespace Sys2Proof.Machine

/-! ## Syntax of format R -/

@[simp] theorem parseR_regText (make : Reg → Reg → Reg → Instr) (d s1 s2 : Reg) :
    parseR make (regText d) (regText s1) (regText s2) = some (make d s1 s2) := by simp [parseR]

/-- A mnemonic of format R with the spellings of three registers is read as its instruction on them. -/
theorem parseTokens_of_formR {m : Text} {make : Reg → Reg → Reg → Instr}
    (h : (realForms.find? fun f => decide (f.1 = m)) = some (m, parseR make)) (d s1 s2 : Reg) :
    parseTokens [m, regText d, regText s1, regText s2] = some (make d s1 s2) := by
  simp [parseTokens, parseReal, h]

/-! ## Encoding -/

theorem decode_formatR_or (p : Params) (d s1 s2 : Reg) : decode p (formatR 0b0011#4 d s1 s2) = .ok (.or d s1 s2) := by
  simp [decode, formatR]

theorem decode_formatR_and (p : Params) (d s1 s2 : Reg) : decode p (formatR 0b0100#4 d s1 s2) = .ok (.and d s1 s2) := by
  simp [decode, formatR]

/-! ## Effect -/

/-- A write back completes with the value's bits in the destination, r0 keeping its zeros, and changes nothing else but
the pc. -/
theorem writeBack_bits (d : Reg) (v : Word) (s : State) : ∃ t, writeBack d v s = .next t ∧
    (∀ k, (t.readReg d).getLsbD k = (decide (d ≠ 0) && v.getLsbD k)) ∧
    t.pc = s.pc + 1#16 ∧ UnchangedBut (some d) none s t := by
  obtain ⟨t, hnext, hd, hpc, hframe⟩ := writeBack_spec d v s
  refine ⟨t, hnext, fun k => ?_, hpc, hframe⟩
  by_cases h : d = 0 <;> simp [hd, h]

theorem exec_or (s : State) (d s1 s2 : Reg) :
    exec (.or d s1 s2) s = writeBack d (s.readReg s1 ||| s.readReg s2) s := rfl

theorem exec_and (s : State) (d s1 s2 : Reg) :
    exec (.and d s1 s2) s = writeBack d (s.readReg s1 &&& s.readReg s2) s := rfl

/-- Settles O5: `or` writes back the bitwise or of its two sources, and bit k of that is the or of their bits k. -/
theorem orIsBitwise : Obligations.OrIsBitwise := by
  refine ⟨parseTokens_of_formR rfl, decode_formatR_or, rfl, ⟨_, rfl, rfl, rfl⟩, fun s d s1 s2 => ?_⟩
  obtain ⟨t, hnext, hbits, hpc, hframe⟩ := writeBack_bits d (s.readReg s1 ||| s.readReg s2) s
  exact ⟨t, (exec_or s d s1 s2).trans hnext, fun k _ => by rw [hbits, BitVec.getLsbD_or], hpc, hframe⟩

/-- Settles O6: `and` writes back the bitwise and of its two sources, and bit k of that is the and of their bits k. -/
theorem andIsBitwise : Obligations.AndIsBitwise := by
  refine ⟨parseTokens_of_formR rfl, decode_formatR_and, rfl, ⟨_, rfl, rfl, rfl⟩, fun s d s1 s2 => ?_⟩
  obtain ⟨t, hnext, hbits, hpc, hframe⟩ := writeBack_bits d (s.readReg s1 &&& s.readReg s2) s
  exact ⟨t, (exec_and s d s1 s2).trans hnext, fun k _ => by rw [hbits, BitVec.getLsbD_and], hpc, hframe⟩

end Sys2Proof.Machine
end

section
/-! The pseudo-instructions `not S1`, `idle` and `move` (44_pseudoinstructions.md R140, R141, R144). Each stands for an
ALU instruction whose third operand is r0, which reads as zero, so the sum in it is its second operand. -/

namespace Sys2Proof.Machine

/-! ## Syntax -/

theorem parseTokens_notSelf (r : Reg) : parseTokens [['n', 'o', 't'], regText r] = some (expand (.notSelf r)) := by
  simp [parseTokens, parsePseudo1]

theorem parseTokens_move (a b : Reg) :
    parseTokens [['m', 'o', 'v', 'e'], regText a, regText b] = some (expand (.move a b)) := by
  simp [parseTokens, parseMove]

/-! ## Words -/

@[simp] theorem regField_zero : regField 0 = 0b0000#4 := rfl

theorem encode_not_zero (p : Params) (d s1 : Reg) :
    encode p (.not d s1 0) = assemble 0b0000#4 (regField d) (regField s1) 0b0000#4 := by
  simp [encode, formatR, Instr.opcode]

theorem encode_add_zero (p : Params) (d s1 : Reg) :
    encode p (.add d s1 0) = assemble 0b0001#4 (regField d) (regField s1) 0b0000#4 := by
  simp [encode, formatR, Instr.opcode]

/-! ## Effect -/

theorem exec_not_zero (s : State) (d s1 : Reg) : exec (.not d s1 0) s = writeBack d (~~~(s.readReg s1)) s := by
  simp [exec, execNot]

theorem exec_add_zero (s : State) (d s1 : Reg) : exec (.add d s1 0) s = writeBack d (s.readReg s1) s := by
  simp [exec, execAdd]

/-- r0 reads as zero in every state, so a frame that leaves r0 out is a frame of all the registers. -/
theorem UnchangedBut.of_zero {a : Option Word} {s t : State} (h : UnchangedBut (some 0) a s t) :
    UnchangedBut none a s t := by
  obtain ⟨hreg, hcell, himem, hparams⟩ := h
  refine ⟨fun r _ => ?_, hcell, himem, hparams⟩
  by_cases hr : r = 0
  · simp [hr]
  · exact hreg r fun h => hr (Option.some.inj h)

theorem notSelf_effect (s : State) (r : Reg) : ∃ t, exec (expand (.notSelf r)) s = .next t ∧
    (∀ k, k < 16 → (t.readReg r).getLsbD k = (decide (r ≠ 0) && !(s.readReg r).getLsbD k)) ∧
    t.pc = s.pc + 1#16 ∧ UnchangedBut (some r) none s t := by
  obtain ⟨t, hnext, hbits, hpc, hframe⟩ := writeBack_bits r (~~~(s.readReg r)) s
  refine ⟨t, (exec_not_zero s r r).trans hnext, fun k hk => ?_, hpc, hframe⟩
  rw [hbits, BitVec.getLsbD_not, decide_eq_true hk, Bool.true_and]

/-- `idle` writes its result to r0, where it is discarded. -/
theorem idle_effect (s : State) :
    ∃ t, exec (expand .idle) s = .next t ∧ t.pc = s.pc + 1#16 ∧ UnchangedBut none none s t := by
  obtain ⟨t, hnext, -, hpc, hframe⟩ := writeBack_spec 0 (~~~(s.readReg 0)) s
  exact ⟨t, (exec_not_zero s 0 0).trans hnext, hpc, hframe.of_zero⟩

theorem move_effect (s : State) (a b : Reg) : ∃ t, exec (expand (.move a b)) s = .next t ∧
    t.readReg a = (if a = 0 then 0x0000#16 else s.readReg b) ∧
    t.pc = s.pc + 1#16 ∧ UnchangedBut (some a) none s t := by
  rw [expand, exec_add_zero]
  exact writeBack_spec a (s.readReg b) s

/-- Settles O45: each of the three spellings is read as its expansion, an ALU instruction with r0 as its third operand,
which writes back the complement or the copy of its second operand; for `idle` the destination discards it. -/
theorem notIdleMoveEffects : Obligations.NotIdleMoveEffects :=
  ⟨fun p r => ⟨parseTokens_notSelf r, rfl, encode_not_zero p r r⟩,
    fun p => ⟨rfl, rfl, encode_not_zero p 0 0⟩,
    fun s => ⟨_, rfl, by rw [readReg_zero]; decide⟩,
    fun p a b => ⟨parseTokens_move a b, rfl, encode_add_zero p a b⟩,
    fun s r a b => ⟨notSelf_effect s r, idle_effect s, move_effect s a b⟩⟩

end Sys2Proof.Machine
end

section
/-! What the decoder reads, said once: the inversion lemma of `decode`, the shapes its answer can have, and what each
rejection means (30_encoding.md R60 to R72). -/

namespace Sys2Proof

/-! ## The operands that a word holds -/

/-- The operands of format R (R61). -/
def FieldsR (w : Word) (d s1 s2 : Reg) : Prop :=
  regOf (field1 w) = d ∧ regOf (field2 w) = s1 ∧ regOf (field3 w) = s2

/-- The operands of format I (R62). -/
def FieldsI (p : Params) (w : Word) (d s1 : Reg) (n : Int) : Prop :=
  regOf (field1 w) = d ∧ regOf (field2 w) = s1 ∧ immediate p.immDecode (field3 w) = some n

/-- The operands of format J (R63). -/
def FieldsJ (p : Params) (w : Word) (n : Int) (s1 s2 : Reg) : Prop :=
  immediate p.immDecode (field1 w) = some n ∧ regOf (field2 w) = s1 ∧ regOf (field3 w) = s2

/-- The word's fields i1 to i3 stand for the instruction's operands, in the instruction's format. -/
def OperandsRead (p : Params) (w : Word) : Instr → Prop
  | .not d s1 s2 => FieldsR w d s1 s2 ∧ notFormAdmitted p s2 = true
  | .add d s1 s2 | .sub d s1 s2 | .or d s1 s2 | .and d s1 s2 | .read d s1 s2 | .write d s1 s2 => FieldsR w d s1 s2
  | .beq n s1 s2 | .bgt n s1 s2 | .bge n s1 s2 => FieldsJ p w n s1 s2
  | .addi d s1 n | .readi d s1 n | .writei d s1 n => FieldsI p w d s1 n

theorem withImmediate_of_some {p : Params} {f : Nibble} {n : Int} (h : immediate p.immDecode f = some n)
    (make : Int → Instr) : withImmediate p f make = .ok (make n) := withImmediate_eq_ok.2 ⟨n, h, rfl⟩

/-- The decoder's inversion lemma: a word decodes to the instruction whose opcode and operands it holds. -/
theorem decode_eq_ok_iff {p : Params} {w : Word} {i : Instr} :
    decode p w = .ok i ↔ field0 w = i.opcode ∧ OperandsRead p w i := by
  constructor
  · intro h
    unfold decode at h
    split at h
    case h_1 hop =>
      obtain ⟨hadmitted, rfl⟩ := decodeNot_eq_ok.1 h
      exact ⟨BitVec.eq_of_toNat_eq hop, ⟨rfl, rfl, rfl⟩, hadmitted⟩
    case h_2 hop | h_3 hop | h_4 hop | h_5 hop | h_10 hop | h_11 hop =>
      cases h
      exact ⟨BitVec.eq_of_toNat_eq hop, rfl, rfl, rfl⟩
    case h_6 hop | h_7 hop | h_8 hop =>
      obtain ⟨n, hn, rfl⟩ := withImmediate_eq_ok.1 h
      exact ⟨BitVec.eq_of_toNat_eq hop, hn, rfl, rfl⟩
    case h_9 hop | h_12 hop | h_13 hop =>
      obtain ⟨n, hn, rfl⟩ := withImmediate_eq_ok.1 h
      exact ⟨BitVec.eq_of_toNat_eq hop, rfl, rfl, hn⟩
    case h_14 => cases h
  · rintro ⟨hop, hread⟩
    cases i <;> simp only [decode, hop, Instr.opcode]
    case not =>
      obtain ⟨⟨rfl, rfl, rfl⟩, hadmitted⟩ := hread
      exact decodeNot_eq_ok.2 ⟨hadmitted, rfl⟩
    case add | sub | or | and | read | write =>
      obtain ⟨rfl, rfl, rfl⟩ := hread
      rfl
    case beq | bgt | bge =>
      obtain ⟨hn, rfl, rfl⟩ := hread
      exact withImmediate_of_some hn _
    case addi | readi | writei =>
      obtain ⟨rfl, rfl, hn⟩ := hread
      exact withImmediate_of_some hn _

/-! ## The word of an instruction -/

theorem field0_encode (p : Params) (i : Instr) : field0 (encode p i) = i.opcode := by
  cases i <;> exact field0_assemble _ _ _ _

theorem fieldsR_formatR (op : Nibble) (d s1 s2 : Reg) : FieldsR (formatR op d s1 s2) d s1 s2 := by
  simp [FieldsR, formatR]

theorem fieldsI_formatI (p : Params) (op : Nibble) (d s1 : Reg) {n : Int} (h : immInRange n = true) :
    FieldsI p (formatI p op d s1 n) d s1 n := by
  simp [FieldsI, formatI, immediate_immField _ h]

theorem fieldsJ_formatJ (p : Params) (op : Nibble) {n : Int} (s1 s2 : Reg) (h : immInRange n = true) :
    FieldsJ p (formatJ p op n s1 s2) n s1 s2 := by
  simp [FieldsJ, formatJ, immediate_immField _ h]

/-- The word of a well-formed instruction holds its operands. -/
theorem operandsRead_encode {p : Params} {i : Instr} (h : i.wellFormed p = true) : OperandsRead p (encode p i) i := by
  cases i
  case not => exact ⟨fieldsR_formatR _ _ _ _, h⟩
  case add | sub | or | and | read | write => exact fieldsR_formatR _ _ _ _
  case beq | bgt | bge => exact fieldsJ_formatJ p _ _ _ h
  case addi | readi | writei => exact fieldsI_formatI p _ _ _ h

/-- Settles O24: the word of an instruction has its opcode and, as the instruction is well-formed, its operands, which is
what the decoder reads. -/
theorem decodeOfEncodeIsTheInstruction : Obligations.DecodeOfEncodeIsTheInstruction :=
  fun p i h => decode_eq_ok_iff.2 ⟨field0_encode p i, operandsRead_encode h⟩

/-! ## The instruction of a word -/

/-- Settles O26: the operands that a word holds are those of a well-formed instruction, as the decoder admits the third
operand of `not` and every immediate lies in its range. -/
theorem decodedInstructionIsWellFormed : Obligations.DecodedInstructionIsWellFormed := by
  intro p w i h
  obtain ⟨hop, hread⟩ := decode_eq_ok_iff.1 h
  refine ⟨?_, hop.symm⟩
  cases i
  case not => exact hread.2
  case add | sub | or | and | read | write => rfl
  case beq | bgt | bge => exact immediate_inRange hread.1
  case addi | readi | writei => exact immediate_inRange hread.2.2

/-- A property of all fields is checked on the sixteen numbers that a field holds. -/
theorem forall_nibble {P : Nibble → Prop} (h : ∀ k : Fin 16, P (BitVec.ofFin k)) (f : Nibble) : P f := h f.toFin

/-- The encoder writes the field that was read, or the field is the second zero of sign and magnitude. -/
theorem immField_immediate_or {m : ImmDecode} {f : Nibble} {n : Int} (h : immediate m f = some n) :
    immField m n = f ∨ (m = .signMagnitude ∧ f = 0b1000#4) := by
  cases m with
  | twosComplement => exact .inl (immField_immediate h)
  | signMagnitude =>
    have all : ∀ f, f = 0b1000#4 ∨ (immediate .signMagnitude f).map (immField .signMagnitude) = some f :=
      forall_nibble (by decide)
    rcases all f with h8 | hf
    · exact .inr ⟨rfl, h8⟩
    · rw [h] at hf
      exact .inl (Option.some.inj hf)

theorem formatR_of_fieldsR {w : Word} {d s1 s2 : Reg} (h : FieldsR w d s1 s2) : formatR (field0 w) d s1 s2 = w := by
  obtain ⟨rfl, rfl, rfl⟩ := h
  exact assemble_fields w

theorem formatI_of_fieldsI {p : Params} {w : Word} {d s1 : Reg} {n : Int} (h : FieldsI p w d s1 n) :
    formatI p (field0 w) d s1 n = w ∨ (p.immDecode = .signMagnitude ∧ field3 w = 0b1000#4) := by
  obtain ⟨rfl, rfl, hn⟩ := h
  refine (immField_immediate_or hn).imp_left fun hf => ?_
  rw [formatI, hf]
  exact assemble_fields w

theorem formatJ_of_fieldsJ {p : Params} {w : Word} {n : Int} {s1 s2 : Reg} (h : FieldsJ p w n s1 s2) :
    formatJ p (field0 w) n s1 s2 = w ∨ (p.immDecode = .signMagnitude ∧ field1 w = 0b1000#4) := by
  obtain ⟨hn, rfl, rfl⟩ := h
  refine (immField_immediate_or hn).imp_left fun hf => ?_
  rw [formatJ, hf]
  exact assemble_fields w

/-- Settles O25: each format's fields give the word back, but for the immediate field of a second zero. -/
theorem encodeOfDecodeIsTheWord : Obligations.EncodeOfDecodeIsTheWord := by
  intro p w i h
  obtain ⟨hop, hread⟩ := decode_eq_ok_iff.1 h
  cases i <;> simp only [encode, ← hop]
  case not => exact .inl (formatR_of_fieldsR hread.1)
  case add | sub | or | and | read | write => exact .inl (formatR_of_fieldsR hread)
  case beq | bgt | bge =>
    exact (formatJ_of_fieldsJ hread).imp_right fun ⟨hm, hf⟩ => ⟨hm, .inr ⟨by simp [hop, Instr.opcode], hf⟩⟩
  case addi | readi | writei =>
    exact (formatI_of_fieldsI hread).imp_right fun ⟨hm, hf⟩ => ⟨hm, .inl ⟨by simp [hop, Instr.opcode], hf⟩⟩

end Sys2Proof
end

section
/-! What the decoder rejects (30_encoding.md R71, R72), and the words and immediates that the spec writes out. -/

namespace Sys2Proof

/-! ## The shapes of the decoder's answer -/

/-- The opcodes of the instructions with three registers that are always admitted (R70). -/
def registerOpcodes : List Nibble := [0b0001#4, 0b0010#4, 0b0011#4, 0b0100#4, 0b1001#4, 0b1010#4]
/-- The opcodes of format J, whose immediate is i1 (R63). -/
def offsetOpcodes : List Nibble := [0b0101#4, 0b0110#4, 0b0111#4]
/-- The opcodes of format I, whose immediate is i3 (R62). -/
def immediateOpcodes : List Nibble := [0b1000#4, 0b1011#4, 0b1100#4]

/-- The decoder's answer by the kind of opcode: each kind is rejected in one way at most. -/
inductive DecodeShape (p : Params) (w : Word) : Prop where
  | notForm (hop : field0 w = 0b0000#4)
      (h : decode p w = decodeNot p (regOf (field1 w)) (regOf (field2 w)) (regOf (field3 w)))
  | registers (i : Instr) (hop : field0 w ∈ registerOpcodes) (h : decode p w = .ok i)
  | offset (make : Int → Instr) (hop : field0 w ∈ offsetOpcodes) (h : decode p w = withImmediate p (field1 w) make)
  | immediate (make : Int → Instr) (hop : field0 w ∈ immediateOpcodes)
      (h : decode p w = withImmediate p (field3 w) make)
  | illegal (hop : 13 ≤ (field0 w).toNat) (h : decode p w = .error .illegalOpcode)

theorem decode_shape (p : Params) (w : Word) : DecodeShape p w := by
  have answer : decode p w = decode p w := rfl
  conv_rhs at answer => unfold decode
  split at answer
  case h_1 h => exact .notForm (BitVec.eq_of_toNat_eq h) answer
  case h_2 h | h_3 h | h_4 h | h_5 h | h_10 h | h_11 h =>
    exact .registers _ (by simp [registerOpcodes, ← BitVec.toNat_inj, h]) answer
  case h_6 h | h_7 h | h_8 h => exact .offset _ (by simp [offsetOpcodes, ← BitVec.toNat_inj, h]) answer
  case h_9 h | h_12 h | h_13 h => exact .immediate _ (by simp [immediateOpcodes, ← BitVec.toNat_inj, h]) answer
  case h_14 =>
    refine .illegal ?_ answer
    simp only [imp_false] at *
    omega

/-! ## Illegal opcodes (R71) -/

theorem decode_eq_illegalOpcode_iff {p : Params} {w : Word} :
    decode p w = .error .illegalOpcode ↔ 13 ≤ (field0 w).toNat := by
  cases decode_shape p w with
  | notForm hop h => simp [h, hop, decodeNot_eq_error]
  | registers i hop h =>
    have hlow : ∀ op ∈ registerOpcodes, ¬ 13 ≤ op.toNat := by decide
    simp [h, hlow _ hop]
  | offset make hop h =>
    have hlow : ∀ op ∈ offsetOpcodes, ¬ 13 ≤ op.toNat := by decide
    simp [h, hlow _ hop, withImmediate_eq_error]
  | immediate make hop h =>
    have hlow : ∀ op ∈ immediateOpcodes, ¬ 13 ≤ op.toNat := by decide
    simp [h, hlow _ hop, withImmediate_eq_error]
  | illegal hop h => simp [h, hop]

/-- The opcode is the word's number divided by 4096. -/
theorem opcode_ge_13_iff (w : Word) : 13 ≤ (field0 w).toNat ↔ 0xD000 ≤ w.toNat := by
  have hfield : (field0 w).toNat = w.toNat / 4096 % 16 := by
    simp [field0, BitVec.extractLsb'_toNat, Nat.shiftRight_eq_div_pow]
  have := w.isLt
  omega

/-- Settles O27: the illegal opcodes are those from 13 up, and 13 times 4096 is 0xD000. -/
theorem illegalOpcodesAreExactlyTheTopThree : Obligations.IllegalOpcodesAreExactlyTheTopThree :=
  fun _ w => decode_eq_illegalOpcode_iff.trans (opcode_ge_13_iff w)

/-! ## Reserved immediates (R72 a) -/

/-- The word has an immediate field, and it is the pattern 1000. -/
def ReservedField (w : Word) : Prop :=
  (field0 w ∈ immediateOpcodes ∧ field3 w = 0b1000#4) ∨ (field0 w ∈ offsetOpcodes ∧ field1 w = 0b1000#4)

theorem reservedField_of_offset {w : Word} (h : field0 w ∈ offsetOpcodes) :
    ReservedField w ↔ field1 w = 0b1000#4 := by
  have hdisjoint : ∀ op ∈ offsetOpcodes, op ∉ immediateOpcodes := by decide
  simp [ReservedField, h, hdisjoint _ h]

theorem reservedField_of_immediate {w : Word} (h : field0 w ∈ immediateOpcodes) :
    ReservedField w ↔ field3 w = 0b1000#4 := by
  have hdisjoint : ∀ op ∈ immediateOpcodes, op ∉ offsetOpcodes := by decide
  simp [ReservedField, h, hdisjoint _ h]

theorem not_reservedField {w : Word} (h : field0 w ∉ offsetOpcodes ++ immediateOpcodes) : ¬ ReservedField w := by
  rw [List.mem_append, not_or] at h
  simp [ReservedField, h]

theorem decode_eq_reservedImmediate_iff {p : Params} {w : Word} :
    decode p w = .error .reservedImmediate ↔ p.immDecode = .twosComplement ∧ ReservedField w := by
  cases decode_shape p w with
  | notForm hop h =>
    have hnone : ¬ ReservedField w := not_reservedField (by rw [hop]; decide)
    simp [h, hnone, decodeNot_eq_error]
  | registers i hop h =>
    have hother : ∀ op ∈ registerOpcodes, op ∉ offsetOpcodes ++ immediateOpcodes := by decide
    simp [h, not_reservedField (hother _ hop)]
  | offset make hop h => simp [h, withImmediate_eq_error, immediate_eq_none_iff, reservedField_of_offset hop]
  | immediate make hop h => simp [h, withImmediate_eq_error, immediate_eq_none_iff, reservedField_of_immediate hop]
  | illegal hop h =>
    have hlow : ∀ op ∈ offsetOpcodes ++ immediateOpcodes, ¬ 13 ≤ op.toNat := by decide
    simp [h, not_reservedField fun hmem => hlow _ hmem hop]

/-! ## The undocumented form of `not` (R72 b) -/

theorem notFormAdmitted_eq_false_iff {p : Params} {f : Nibble} :
    notFormAdmitted p (regOf f) = false ↔ p.notS2 = .refuse ∧ f ≠ 0b0000#4 := by
  have hf : regOf f = 0 ↔ f = 0b0000#4 := ⟨fun h => BitVec.eq_of_toFin_eq h, fun h => h ▸ rfl⟩
  cases h : p.notS2 <;> simp [notFormAdmitted, h, hf]

theorem decode_eq_undocumentedForm_iff {p : Params} {w : Word} :
    decode p w = .error .undocumentedForm ↔
      p.notS2 = .refuse ∧ field0 w = 0b0000#4 ∧ field3 w ≠ 0b0000#4 := by
  cases decode_shape p w with
  | notForm hop h => simp [h, hop, decodeNot_eq_error, notFormAdmitted_eq_false_iff]
  | registers i hop h =>
    have hother : ∀ op ∈ registerOpcodes, op ≠ 0b0000#4 := by decide
    simp [h, hother _ hop]
  | offset make hop h =>
    have hother : ∀ op ∈ offsetOpcodes, op ≠ 0b0000#4 := by decide
    simp [h, hother _ hop, withImmediate_eq_error]
  | immediate make hop h =>
    have hother : ∀ op ∈ immediateOpcodes, op ≠ 0b0000#4 := by decide
    simp [h, hother _ hop, withImmediate_eq_error]
  | illegal hop h =>
    have hother : field0 w ≠ 0b0000#4 := fun h0 => by simp [h0] at hop
    simp [h, hother]

/-! ## Tables of the spec -/

/-- Settles O28: each column of the table is checked field by field. -/
theorem immediateTable : Obligations.ImmediateTable := ⟨forall_nibble (by decide), forall_nibble (by decide)⟩

/-- Settles O29: the eight words of the spec's section 2.1 are evaluated. -/
theorem specWordsDecode : Obligations.SpecWordsDecode := by
  unfold Obligations.SpecWordsDecode
  decide

end Sys2Proof
end

section
/-! The instructions one by one (40_alu_register.md, 42_add_immediate.md, 43_memory_access.md): each runs one of the
shared shapes, so its result, completion and frame are that shape's, and what is left is the arithmetic of its operand. -/

namespace Sys2Proof.Machine

/-! ## The number that a write back leaves -/

/-- `writeBack_spec` with the value given by its number. -/
theorem writeBack_toNat (d : Reg) {v : Word} {n : Nat} (hv : v.toNat = n) (s : State) :
    ∃ t, writeBack d v s = .next t ∧ (t.readReg d).toNat = (if d = 0 then 0 else n) ∧
      t.pc = s.pc + 1#16 ∧ UnchangedBut (some d) none s t := by
  obtain ⟨t, hnext, hd, hpc, hframe⟩ := writeBack_spec d v s
  refine ⟨t, hnext, ?_, hpc, hframe⟩
  rw [hd, ← hv]
  split <;> rfl

/-- The same for a number that is computed as an integer. -/
theorem writeBack_toNat_int (d : Reg) {v : Word} {n : Int} (hv : (v.toNat : Int) = n) (s : State) :
    ∃ t, writeBack d v s = .next t ∧ ((t.readReg d).toNat : Int) = (if d = 0 then 0 else n) ∧
      t.pc = s.pc + 1#16 ∧ UnchangedBut (some d) none s t := by
  obtain ⟨t, hnext, hd, hpc, hframe⟩ := writeBack_toNat d rfl s
  refine ⟨t, hnext, ?_, hpc, hframe⟩
  rw [hd, ← hv]
  split <;> rfl

/-! ## `not`, `+`, `-`, `+i` -/

/-- Settles O1: the documented form writes back the complement of its one source. -/
theorem notComplementsEveryBit : Obligations.NotComplementsEveryBit := by
  intro s d s1
  obtain ⟨t, hnext, hbits, hpc, hframe⟩ := writeBack_bits d (~~~(s.readReg s1)) s
  refine ⟨t, (exec_not_zero s d s1).trans hnext, fun k hk => ?_, hpc, hframe⟩
  rw [hbits, BitVec.getLsbD_not, decide_eq_true hk, Bool.true_and]

/-- Settles O3: `+` writes back the sum of two words. -/
theorem addWritesSumModulo65536 : Obligations.AddWritesSumModulo65536 :=
  fun s d _ _ => writeBack_toNat d (BitVec.toNat_add _ _) s

/-- The difference of two words, as integers (00_scope.md R11). -/
theorem toNat_sub_int (a b : Word) : ((a - b).toNat : Int) = ((a.toNat : Int) - b.toNat) % 65536 := by
  have ha := a.isLt
  have hb := b.isLt
  rw [BitVec.toNat_sub]
  omega

/-- Settles O4: `-` writes back the difference of two words. -/
theorem subWritesDifferenceModulo65536 : Obligations.SubWritesDifferenceModulo65536 :=
  fun s d _ _ => writeBack_toNat_int d (toNat_sub_int _ _) s

/-- Settles O7: `+i` writes back the sum of a word and an immediate. -/
theorem addImmediateWritesSum : Obligations.AddImmediateWritesSum :=
  fun s d _ _ => writeBack_toNat_int d (toNat_add_immWord _ _) s

/-! ## `++` and `--` -/

theorem immField_one (m : ImmDecode) : immField m 1 = 0b0001#4 := by cases m <;> rfl

theorem encode_addi (p : Params) (d s1 : Reg) (n : Int) :
    encode p (.addi d s1 n) = assemble 0b1000#4 (regField d) (regField s1) (immField p.immDecode n) := rfl

/-- Settles O46: the two spellings are `+i` with 1 and -1, whose 16-bit words are 1 and 65535 and whose fields are those
that `IMM_DECODE` gives the two numbers. -/
theorem incrementDecrementEffects : Obligations.IncrementDecrementEffects := by
  refine ⟨fun p r => ⟨?_, fun hm => ?_, fun hm => ?_⟩, fun s r => ⟨?_, ?_⟩⟩
  · rw [expand, encode_addi, immField_one]
  · rw [expand, encode_addi, hm]; rfl
  · rw [expand, encode_addi, hm]; rfl
  · exact writeBack_toNat r (BitVec.toNat_add _ 1#16) s
  · exact writeBack_toNat r (BitVec.toNat_add _ 65535#16) s

/-! ## Loads and stores -/

/-- Settles O11: `read` is a load at the sum of two registers. -/
theorem readLoadsTheAddressedCell : Obligations.ReadLoadsTheAddressedCell :=
  fun s d _ _ => ⟨BitVec.toNat_add _ _, writeBack_spec d _ s⟩

/-- Settles O12: `write` is a store at the sum of two registers. -/
theorem writeStoresToTheAddressedCell : Obligations.WriteStoresToTheAddressedCell :=
  fun s d _ _ => ⟨BitVec.toNat_add _ _, store_spec d _ s⟩

/-- Settles O13: `readi` is a load at the sum of a register and an immediate. -/
theorem readImmediateLoadsTheAddressedCell : Obligations.ReadImmediateLoadsTheAddressedCell :=
  fun s d _ _ => ⟨toNat_add_immWord _ _, writeBack_spec d _ s⟩

/-- Settles O14: `writei` is a store at the sum of a register and an immediate. -/
theorem writeImmediateStoresToTheAddressedCell : Obligations.WriteImmediateStoresToTheAddressedCell :=
  fun s d _ _ => ⟨toNat_add_immWord _ _, store_spec d _ s⟩

/-- A store and then a load, in one state after the other. -/
theorem load_after_store (d e : Reg) (ea la : Word) (s : State) : ∃ t u, store d ea s = .next t ∧
    (∀ r, t.readReg r = s.readReg r) ∧ load e la t = .next u ∧
    u.readReg e = (if e = 0 then 0x0000#16 else if la = ea then s.readReg d else s.readCell la) := by
  refine ⟨_, _, rfl, fun r => by simp, rfl, ?_⟩
  simp [readReg_writeReg_self]

/-- Settles O20: a store changes no register, so the load's address is the same after it as before. -/
theorem loadAfterStoreSeesTheStore : Obligations.LoadAfterStoreSeesTheStore := by
  intro s d s1 s2 e b1 b2 n m st ld ea la hst hld
  obtain ⟨t, u, hstore, hreg, hload, hvalue⟩ := load_after_store d e ea la s
  refine ⟨t, u, ?_, ?_, hvalue⟩
  · simp only [List.mem_cons, Prod.mk.injEq, List.not_mem_nil, or_false] at hst
    rcases hst with ⟨rfl, rfl⟩ | ⟨rfl, rfl⟩ <;> exact hstore
  · rw [← hload]
    simp only [List.mem_cons, Prod.mk.injEq, List.not_mem_nil, or_false] at hld
    rcases hld with ⟨rfl, rfl⟩ | ⟨rfl, rfl⟩
    · simp only [exec, execRead, eaRegReg, hreg]
    · simp only [exec, execReadi, eaRegImm, hreg]

/-! ## Destination r0 -/

theorem writeBack_zero (v : Word) (s : State) : writeBack 0 v s = .next s.advance := rfl

/-- Settles O15: each of the eight writes back to r0, where the value is discarded. -/
theorem destinationR0ChangesOnlyThePc : Obligations.DestinationR0ChangesOnlyThePc := by
  refine fun s s1 s2 n => ⟨fun i hi => ?_, readReg_zero s⟩
  simp only [List.mem_cons, List.not_mem_nil, or_false] at hi
  rcases hi with rfl | rfl | rfl | rfl | rfl | rfl | rfl | rfl <;> exact writeBack_zero _ s

end Sys2Proof.Machine
end

section
/-! The comparisons and the three branches (41_branches.md). The branches share their format and their shape; only the
condition differs. -/

namespace Sys2Proof.Machine

/-! ## Comparisons (R110) -/

@[simp] theorem condEq_iff (a b : Word) : condEq a b = true ↔ a = b := by simp [condEq]
@[simp] theorem condGt_signed (a b : Word) : condGt .signed a b = true ↔ a.toInt > b.toInt := by simp [condGt]
@[simp] theorem condGt_unsigned (a b : Word) : condGt .unsigned a b = true ↔ a.toNat > b.toNat := by simp [condGt]
@[simp] theorem condGe_signed (a b : Word) : condGe .signed a b = true ↔ a.toInt ≥ b.toInt := by simp [condGe]
@[simp] theorem condGe_unsigned (a b : Word) : condGe .unsigned a b = true ↔ a.toNat ≥ b.toNat := by simp [condGe]

theorem condGe_eq_gt_or_eq (m : CmpReading) (a b : Word) : condGe m a b = (condGt m a b || condEq a b) := by
  rw [Bool.eq_iff_iff, Bool.or_eq_true, condEq_iff]
  cases m with
  | signed => rw [condGe_signed, condGt_signed, ← BitVec.toInt_inj]; omega
  | unsigned => rw [condGe_unsigned, condGt_unsigned, ← BitVec.toNat_inj]; omega

theorem condGe_eq_not_gt_swap (m : CmpReading) (a b : Word) : condGe m a b = !condGt m b a := by
  rw [Bool.eq_iff_iff, Bool.not_eq_true', ← Bool.not_eq_true]
  cases m with
  | signed => rw [condGe_signed, condGt_signed]; omega
  | unsigned => rw [condGe_unsigned, condGt_unsigned]; omega

/-- The two readings differ by 65536 on the words with the top bit, which then lie below those without it in the one and
above them in the other. -/
theorem condGt_readings_differ_iff (a b : Word) :
    condGt .signed a b ≠ condGt .unsigned a b ↔ a.msb ≠ b.msb := by
  rw [ne_eq, Bool.eq_iff_iff, condGt_signed, condGt_unsigned, ne_eq, BitVec.msb_eq_decide, BitVec.msb_eq_decide,
    decide_eq_decide, BitVec.toInt_eq_toNat_cond, BitVec.toInt_eq_toNat_cond]
  have ha := a.isLt
  have hb := b.isLt
  split <;> split <;> omega

/-- Settles O36: the laws of each reading are those of the integers, and the law of >= in two readings is that of > with
the operands exchanged. -/
theorem comparisonLaws : Obligations.ComparisonLaws := by
  refine ⟨condGe_eq_gt_or_eq, condGe_eq_not_gt_swap, condGt_readings_differ_iff, fun a b => ?_⟩
  rw [condGe_eq_not_gt_swap, condGe_eq_not_gt_swap, ne_eq, Bool.not_inj_iff, ← ne_eq, condGt_readings_differ_iff,
    ne_comm]

/-! ## Format J -/

/-- A mnemonic of format J with an offset in range and two registers is read as its instruction on them. -/
theorem parseTokens_of_formJ {m : Text} {make : Int → Reg → Reg → Instr}
    (h : (realForms.find? fun f => decide (f.1 = m)) = some (m, parseJ make)) {n : Int} (s1 s2 : Reg)
    (hn : immInRange n = true) : parseTokens [m, immText n, regText s1, regText s2] = some (make n s1 s2) := by
  simp [parseTokens, parseReal, h, parseJ, parseImm_immText hn]

theorem fieldsJ_assemble {p : Params} {op f : Nibble} {n : Int} (s1 s2 : Reg) (h : immediate p.immDecode f = some n) :
    FieldsJ p (assemble op f (regField s1) (regField s2)) n s1 s2 := by
  simp [FieldsJ, h]

/-! ## Effect -/

/-- A branch's condition decides between the target and the next address. -/
theorem branch_pc (c : Bool) (n : Int) (s : State) : ∃ t, branch c (branchTarget s n) s = .next t ∧
    t.pc = (if c then s.pc + BitVec.ofInt 16 n else s.pc + 1#16) ∧ UnchangedBut none none s t :=
  branch_spec c (branchTarget s n) s

/-- Settles O8: `=` is the branch on equality. -/
theorem branchIfEqual : Obligations.BranchIfEqual := by
  refine ⟨fun n s1 s2 hn => parseTokens_of_formJ rfl s1 s2 hn,
    fun p f n s1 s2 h => decode_eq_ok_iff.2 ⟨field0_assemble _ _ _ _, fieldsJ_assemble s1 s2 h⟩,
    ⟨_, rfl, rfl, rfl, rfl, rfl, rfl⟩, fun s n s1 s2 => ?_⟩
  obtain ⟨t, hnext, hpc, hframe⟩ := branch_pc (condEq (s.readReg s1) (s.readReg s2)) n s
  exact ⟨t, hnext, by simpa only [condEq_iff] using hpc, hframe⟩

/-- Settles O9: `>` is the branch on the reading of > that the parameters name. -/
theorem branchIfGreater : Obligations.BranchIfGreater := by
  refine ⟨fun n s1 s2 hn => parseTokens_of_formJ rfl s1 s2 hn,
    fun p f n s1 s2 h => decode_eq_ok_iff.2 ⟨field0_assemble _ _ _ _, fieldsJ_assemble s1 s2 h⟩,
    rfl, rfl, fun s n s1 s2 => ?_⟩
  obtain ⟨t, hnext, hpc, hframe⟩ := branch_pc (condGt s.params.cmp (s.readReg s1) (s.readReg s2)) n s
  exact ⟨t, hnext, fun hm => by simpa only [hm, condGt_signed] using hpc,
    fun hm => by simpa only [hm, condGt_unsigned] using hpc, hframe⟩

/-- Settles O10: `>=` is the branch on the reading of >= that the parameters name. -/
theorem branchIfGreaterOrEqual : Obligations.BranchIfGreaterOrEqual := by
  refine ⟨fun n s1 s2 hn => parseTokens_of_formJ rfl s1 s2 hn,
    fun p f n s1 s2 h => decode_eq_ok_iff.2 ⟨field0_assemble _ _ _ _, fieldsJ_assemble s1 s2 h⟩,
    rfl, rfl, fun s n s1 s2 => ?_⟩
  obtain ⟨t, hnext, hpc, hframe⟩ := branch_pc (condGe s.params.cmp (s.readReg s1) (s.readReg s2)) n s
  exact ⟨t, hnext, fun hm => by simpa only [hm, condGe_signed] using hpc,
    fun hm => by simpa only [hm, condGe_unsigned] using hpc, hframe⟩

end Sys2Proof.Machine
end

section
/-! The step: what a completed instruction leaves unchanged, when a step stops, and what every step and every run keeps
(10_state.md, 20_memory.md, 45_datapath_control.md R150 to R157, 60_exceptions.md R180 to R184). -/

namespace Sys2Proof.Machine

/-! ## Completion -/

theorem exec_completes (i : Instr) (s : State) : ∃ t, exec i s = .next t := by cases i <;> exact ⟨_, rfl⟩

theorem step_of_error {s : State} {f : Fault} (h : fetchDecode s = .error f) : step s = .fault f := by simp [step, h]

theorem step_of_decode_ok {s : State} {w : Word} {i : Instr} (hw : s.fetchCell s.pc = some w)
    (hi : decode s.params w = .ok i) : step s = exec i s := step_of_ok (fetchDecode_eq_ok.2 ⟨w, hw, hi⟩)

theorem step_of_decode_error {s : State} {w : Word} {e : DecodeError} (hw : s.fetchCell s.pc = some w)
    (he : decode s.params w = .error e) : step s = .fault (faultOf s.pc w e) :=
  step_of_error (fetchDecode_eq_error.2 (.inr ⟨w, e, hw, he, rfl⟩))

theorem step_of_no_cell {s : State} (h : s.fetchCell s.pc = none) : step s = .fault (.noInstruction s.pc) :=
  step_of_error (fetchDecode_eq_error.2 (.inl ⟨h, rfl⟩))

/-- A step goes on or stops with a model fault. -/
theorem step_next_or_fault (s : State) : (∃ t, step s = .next t) ∨ ∃ f, step s = .fault f := by
  cases h : fetchDecode s with
  | ok i => exact .inl (by rw [step_of_ok h]; exact exec_completes i s)
  | error f => exact .inr ⟨f, step_of_error h⟩

/-- Settles O16: every arm of `exec` gives a next state, and a step either runs one or stops with a fault. -/
theorem everyInstructionCompletes : Obligations.EveryInstructionCompletes := by
  refine ⟨exec_completes, fun s r h => ?_⟩
  rcases step_next_or_fault s with ⟨t, hs⟩ | ⟨f, hs⟩ <;> simp [h] at hs

/-- Settles O21: fetching and decoding give the instruction, and the step adds nothing. -/
theorem stepRunsTheDecodedInstruction : Obligations.StepRunsTheDecodedInstruction := fun _ _ _ => step_of_decode_ok

/-- Settles O23: the placed word is the one fetched at the pc, and the placing changes that cell alone. -/
theorem placedWordRunsNext : Obligations.PlacedWordRunsNext := by
  refine fun s nbits w => ⟨fun i hi => ?_, fun a ha => ?_, rfl, rfl, rfl, rfl⟩
  · exact step_of_decode_ok ((fetchCell_placeWord s s.pc s.pc _).trans (if_pos rfl)) hi
  · exact (fetchCell_placeWord s s.pc a _).trans (if_neg ha)

/-! ## Faults -/

/-- Settles O22: each rejection of the decoder holds of exactly the words listed for it, and a word that is not rejected
decodes to an instruction, which completes. -/
theorem stepStopsExactlyAsListed : Obligations.StepStopsExactlyAsListed := by
  refine fun s => ⟨step_of_no_cell, fun w hw =>
    ⟨fun h => ?_, fun h => ?_, fun h => ?_, fun hlegal hreserved hform => ?_⟩⟩
  · exact step_of_decode_error hw (decode_eq_illegalOpcode_iff.2 ((opcode_ge_13_iff w).2 h))
  · exact step_of_decode_error hw (decode_eq_reservedImmediate_iff.2 h)
  · exact step_of_decode_error hw (decode_eq_undocumentedForm_iff.2 h)
  · cases hdecode : decode s.params w with
    | ok i =>
      rw [step_of_decode_ok hw hdecode]
      exact exec_completes i s
    | error e =>
      cases e with
      | illegalOpcode =>
        have := (opcode_ge_13_iff w).1 (decode_eq_illegalOpcode_iff.1 hdecode)
        omega
      | reservedImmediate => exact absurd (decode_eq_reservedImmediate_iff.1 hdecode) hreserved
      | undocumentedForm => exact absurd (decode_eq_undocumentedForm_iff.1 hdecode) hform

theorem toNat_not_add (a b : Word) : (~~~(a + b)).toNat = 65535 - (a.toNat + b.toNat) % 65536 := by
  rw [BitVec.toNat_not, BitVec.toNat_add]

/-- Settles O2: the policy decides whether the decoder admits the form or rejects it, and an admitted one writes back the
complement of the sum. -/
theorem notUndocumentedFormFollowsPolicy : Obligations.NotUndocumentedFormFollowsPolicy := by
  refine fun s d s1 s2 hs2 hw => ⟨fun hpolicy => ?_, fun hpolicy => ?_⟩
  · have hdecode : decode s.params (formatR 0b0000#4 d s1 s2) = .ok (.not d s1 s2) :=
      decode_eq_ok_iff.2 ⟨field0_assemble _ _ _ _, fieldsR_formatR _ _ _ _, by simp [notFormAdmitted, hpolicy]⟩
    rw [step_of_decode_ok hw hdecode]
    exact writeBack_toNat d (toNat_not_add _ _) s
  · have hfield : regField s2 ≠ 0b0000#4 := fun h => hs2 (congrArg regOf h)
    exact step_of_decode_error hw (decode_eq_undocumentedForm_iff.2
      ⟨hpolicy, field0_assemble _ _ _ _, by rwa [field3_assemble]⟩)

/-! ## What the shared shapes leave unchanged -/

section
variable {s t : State}

theorem writeBack_frame {d : Reg} {v : Word} (h : writeBack d v s = .next t) :
    t.pc = s.pc + 1#16 ∧ UnchangedBut (some d) none s t := by
  obtain ⟨u, hu, -, hpc, hframe⟩ := writeBack_spec d v s
  obtain rfl := Host.Outcome.next.inj (h.symm.trans hu)
  exact ⟨hpc, hframe⟩

theorem store_frame {d : Reg} {a : Word} (h : store d a s = .next t) :
    t.pc = s.pc + 1#16 ∧ UnchangedBut none (some a) s t := by
  obtain ⟨u, hu, -, hpc, hframe⟩ := store_spec d a s
  obtain rfl := Host.Outcome.next.inj (h.symm.trans hu)
  exact ⟨hpc, hframe⟩

theorem branch_frame {c : Bool} {n : Int} (h : branch c (branchTarget s n) s = .next t) :
    (t.pc = s.pc + 1#16 ∨ t.pc = s.pc + immWord n) ∧ UnchangedBut none none s t := by
  obtain ⟨u, hu, hpc, hframe⟩ := branch_spec c (branchTarget s n) s
  obtain rfl := Host.Outcome.next.inj (h.symm.trans hu)
  refine ⟨?_, hframe⟩
  cases c
  · exact .inl hpc
  · exact .inr hpc

end

/-- Settles O17: an instruction that ends in a write back leaves the cells alone, a store leaves the registers alone, a
branch both, and the first two move the pc by one. -/
theorem enableSignalsGateEveryWrite : Obligations.EnableSignalsGateEveryWrite := by
  intro i s t h
  cases i
  case not | add | sub | or | and | addi | read | readi =>
    obtain ⟨hpc, -, hcell, -⟩ := writeBack_frame h
    exact ⟨_, rfl, nofun, fun _ a => hcell a nofun, fun _ => hpc⟩
  case write | writei =>
    obtain ⟨hpc, hreg, -⟩ := store_frame h
    exact ⟨_, rfl, fun _ r => hreg r nofun, nofun, fun _ => hpc⟩
  case beq | bgt | bge =>
    obtain ⟨-, hreg, hcell, -⟩ := branch_frame h
    exact ⟨_, rfl, fun _ r => hreg r nofun, fun _ a => hcell a nofun, nofun⟩

/-- Settles O18: a branch takes one of its two ways, and every other instruction moves the pc by one. -/
theorem pcMovesByOneOrByTheBranchOffset : Obligations.PcMovesByOneOrByTheBranchOffset := by
  intro s t h
  obtain ⟨i, hfetch, hexec⟩ := step_eq_next h
  obtain ⟨w, hw, hdecode⟩ := fetchDecode_eq_ok.1 hfetch
  obtain ⟨hop, hread⟩ := decode_eq_ok_iff.1 hdecode
  have hnext (hpc : t.pc = s.pc + 1#16) : t.pc.toNat = (s.pc.toNat + 1) % 65536 := by rw [hpc, BitVec.toNat_add]; rfl
  refine ⟨w, hw, ?_⟩
  cases i
  case not | add | sub | or | and | addi | read | readi => exact .inl (hnext (writeBack_frame hexec).1)
  case write | writei => exact .inl (hnext (store_frame hexec).1)
  case beq n _ _ | bgt n _ _ | bge n _ _ =>
    refine (branch_frame hexec).1.imp hnext fun hpc => ⟨by simp [hop, Instr.opcode], n, hread.1, ?_⟩
    rw [hpc, toNat_add_immWord]

/-! ## The invariant -/

/-- Settles O30: at reset the pc is `RESET_PC` and nothing is listed in the instruction memory. -/
theorem resetLeavesTheSpecsValues : Obligations.ResetLeavesTheSpecsValues :=
  ⟨rfl, rfl, fun _ => rfl, step_of_no_cell rfl⟩

/-- Settles O31: nothing is listed at reset. -/
theorem invariantHoldsAtReset : Obligations.InvariantHoldsAtReset := ⟨rfl, rfl⟩

/-- A data-memory write keeps its canonical form, and no other effect reaches a memory. -/
theorem Effect.keeps_inv {s t : State} (h : Effect s t) (hs : s.Inv) : t.Inv := by
  obtain ⟨hdmem, himem⟩ := hs
  refine ⟨?_, by rwa [h.imem_params.1]⟩
  cases h with
  | register d v ht => rwa [ht, advance_dmem, writeReg_dmem]
  | cell a v ht =>
    rw [ht, advance_dmem, writeCell_dmem]
    exact Memory.wf_write hdmem a v
  | jump n ht => rwa [ht, setPc_dmem]
  | pcOnly ht => rwa [ht, advance_dmem]

/-- Settles O32: a step has one of the four effects, and each keeps both canonical forms. -/
theorem stepKeepsTheInvariant : Obligations.StepKeepsTheInvariant := fun _ _ hs h => (step_effect h).keeps_inv hs

/-- Settles O33: what every step keeps, a run keeps. -/
theorem runKeepsThePremises : Obligations.RunKeepsThePremises :=
  fun _ _ t hs h => ⟨runFor_keeps (P := State.Inv) (fun hstep hu => (step_effect hstep).keeps_inv hu) h hs,
    fun p => runFor_keeps (P := ParamsFixed p) (fun hstep hu => (step_effect hstep).imem_params.2.trans hu) h,
    readReg_zero t⟩

end Sys2Proof.Machine
end

section
/-! The end of a run (70_reset_and_hazards.md R205): the terminal states are the fixed points of the step, so a run stays
in the first one it reaches. -/

namespace Sys2Proof.Machine

/-! ## When an instruction leaves the state as it is -/

theorem pc_add_one_ne (pc : Word) : pc + 1#16 ≠ pc := by simp

theorem writeBack_ne_self (d : Reg) (v : Word) (s : State) : writeBack d v s ≠ .next s :=
  fun h => pc_add_one_ne s.pc (writeBack_frame h).1.symm

theorem store_ne_self (d : Reg) (a : Word) (s : State) : store d a s ≠ .next s :=
  fun h => pc_add_one_ne s.pc (store_frame h).1.symm

theorem immWord_eq_zero_iff {n : Int} (h : immInRange n = true) : immWord n = 0#16 ↔ n = 0 := by
  obtain ⟨hlow, hhigh⟩ := (immInRange_iff n).1 h
  interval_cases n <;> decide

theorem setPc_eq_self_iff (s : State) (pc : Word) : s.setPc pc = s ↔ pc = s.pc :=
  ⟨fun h => congrArg State.pc h, fun h => by rw [h]; rfl⟩

/-- A branch leaves the state as it is where it is taken and its offset is 0. -/
theorem branch_eq_self_iff {c : Bool} {n : Int} (hn : immInRange n = true) (s : State) :
    branch c (branchTarget s n) s = .next s ↔ (decide (n = 0) && c) = true := by
  rw [branch_eq_next, Bool.and_eq_true, decide_eq_true_eq]
  cases c with
  | false =>
    refine iff_of_false (fun h => ?_) (by simp)
    exact pc_add_one_ne s.pc ((setPc_eq_self_iff s _).1 h)
  | true =>
    rw [if_pos rfl, setPc_eq_self_iff, branchTarget, add_eq_left]
    simpa using immWord_eq_zero_iff hn

theorem exec_eq_self_iff {p : Params} {i : Instr} (h : i.wellFormed p = true) (s : State) :
    exec i s = .next s ↔ selfBranchTaken s i = true := by
  cases i
  case not | add | sub | or | and | addi | read | readi =>
    exact iff_of_false (writeBack_ne_self _ _ s) Bool.false_ne_true
  case write | writei => exact iff_of_false (store_ne_self _ _ s) Bool.false_ne_true
  case beq | bgt | bge => exact branch_eq_self_iff h s

/-! ## Terminal states -/

theorem step_eq_next_iff {s t : State} : step s = .next t ↔ ∃ i, fetchDecode s = .ok i ∧ exec i s = .next t :=
  ⟨step_eq_next, fun ⟨_, hi, h⟩ => (step_of_ok hi).trans h⟩

theorem terminal_iff {s : State} :
    s.terminal = true ↔ ∃ i, fetchDecode s = .ok i ∧ selfBranchTaken s i = true := by
  unfold State.terminal
  cases fetchDecode s <;> simp

theorem fetchDecode_wellFormed {s : State} {i : Instr} (h : fetchDecode s = .ok i) : i.wellFormed s.params = true := by
  obtain ⟨w, -, hdecode⟩ := fetchDecode_eq_ok.1 h
  exact (decodedInstructionIsWellFormed _ w i hdecode).1

/-- Settles O37: the instruction at the pc leaves the state as it is exactly where it is a taken branch with offset 0. -/
theorem fixedPointsAreTheTerminalStates : Obligations.FixedPointsAreTheTerminalStates := fun s =>
  step_eq_next_iff.trans <| (exists_congr fun _ => and_congr_right fun hfetch =>
    exec_eq_self_iff (fetchDecode_wellFormed hfetch) s).trans terminal_iff.symm

theorem runFor_of_fixed {s : State} (h : step s = .next s) (n : Nat) : runFor n s = .next s := by
  induction n with
  | zero => rfl
  | succ n ih => rw [runFor_succ_of_next n h, ih]

/-- Settles O38: a terminal state is a fixed point of the step, hence of every run. -/
theorem terminalStateIsKeptForEver : Obligations.TerminalStateIsKeptForEver :=
  fun s h => runFor_of_fixed ((fixedPointsAreTheTerminalStates s).2 h)

theorem decode_canonicalStop (p : Params) : decode p 0x5000#16 = .ok (.beq 0 0 0) := by
  have hzero : immediate p.immDecode (field1 0x5000#16) = some 0 := by cases p.immDecode <;> decide
  exact decode_eq_ok_iff.2 ⟨by decide, hzero, by decide, by decide⟩

/-- Settles O39: under all parameters the word is the branch with offset 0 that compares r0 with itself. -/
theorem canonicalStopIsTakenInEveryState : Obligations.CanonicalStopIsTakenInEveryState := by
  intro s hw
  have hterminal : s.terminal = true :=
    terminal_iff.2 ⟨_, fetchDecode_eq_ok.2 ⟨_, hw, decode_canonicalStop s.params⟩, by simp [selfBranchTaken]⟩
  exact ⟨hterminal, (fixedPointsAreTheTerminalStates s).2 hterminal⟩

/-- A run goes on from where a shorter one has come. -/
theorem runFor_add_of_next {n : Nat} {s t : State} (h : runFor n s = .next t) (k : Nat) :
    runFor (n + k) s = runFor k t := by
  induction n generalizing s with
  | zero => cases h; rw [Nat.zero_add]
  | succ n ih =>
    obtain ⟨u, hu, hrun⟩ := runFor_succ_eq_next h
    rw [Nat.add_right_comm, runFor_succ_of_next _ hu, ih hrun]

/-- A run that has reached a terminal state ends there, however long it is. -/
theorem runFor_of_terminal {n m : Nat} {s t : State} (hnm : n ≤ m) (h : runFor n s = .next t)
    (ht : t.terminal = true) : runFor m s = .next t := by
  rw [← Nat.add_sub_of_le hnm, runFor_add_of_next h]
  exact terminalStateIsKeptForEver t ht _

/-- Settles O40: the longer of the two runs ends where the shorter one has ended. -/
theorem terminalStatesOfARunAgree : Obligations.TerminalStatesOfARunAgree := by
  intro n m s t u hn ht hm hu
  rcases Nat.le_total n m with h | h
  · exact Host.Outcome.next.inj ((runFor_of_terminal h hn ht).symm.trans hm)
  · exact Host.Outcome.next.inj (hn.symm.trans (runFor_of_terminal h hm hu))

end Sys2Proof.Machine
end

section
/-! Position independence (70_reset_and_hazards.md R204): two states that differ by a move of the image and the pc make
the same steps. The move by 0 relates states that differ in the form of the instruction memory only. -/

namespace Sys2Proof.Machine

/-! ## What moved states have in common, and what keeps them so -/

section
variable {b : Word} {s t : State} (h : ShiftedBy b s t)
include h

theorem ShiftedBy.params : t.params = s.params := h.2.2.1

theorem ShiftedBy.readReg (r : Reg) : t.readReg r = s.readReg r := readReg_congr h.1 r

theorem ShiftedBy.readCell (a : Word) : t.readCell a = s.readCell a := by
  rw [State.readCell, State.readCell, h.2.1]

theorem ShiftedBy.fetchCell_pc : t.fetchCell t.pc = s.fetchCell s.pc := by
  obtain ⟨-, -, -, hpc, hcell⟩ := h
  rw [hpc, hcell]

theorem ShiftedBy.setPc (pc : Word) : ShiftedBy b (s.setPc pc) (t.setPc (pc + b)) := by
  obtain ⟨hx, hdmem, hparams, -, hcell⟩ := h
  exact ⟨hx, hdmem, hparams, rfl, hcell⟩

/-- The pc's moves are relative, so they commute with the move of the image. -/
theorem ShiftedBy.setPc_add (d : Word) : ShiftedBy b (s.setPc (s.pc + d)) (t.setPc (t.pc + d)) := by
  have hpc : t.pc + d = s.pc + d + b := by rw [h.2.2.2.1, add_right_comm]
  rw [hpc]
  exact h.setPc _

theorem ShiftedBy.writeReg (d : Reg) (v : Word) : ShiftedBy b (s.writeReg d v) (t.writeReg d v) := by
  obtain ⟨hx, hdmem, hparams, hpc, hcell⟩ := h
  refine ⟨?_, by simpa, by simpa, by simpa, by simpa⟩
  obtain ⟨_ | n, hn⟩ := d
  · exact hx
  · exact congrArg (fun x => x.set n v) hx

theorem ShiftedBy.writeCell (a v : Word) : ShiftedBy b (s.writeCell a v) (t.writeCell a v) := by
  obtain ⟨hx, hdmem, hparams, hpc, hcell⟩ := h
  exact ⟨hx, congrArg (·.write a v) hdmem, hparams, hpc, hcell⟩

end

theorem faultOf_shift (b pc w : Word) (e : DecodeError) : (faultOf pc w e).shift b = faultOf (pc + b) w e := by
  cases e <;> rfl

/-! ## Shared shapes and instructions -/

section
variable {b : Word} {s s' t : State} (h : ShiftedBy b s t)
include h

theorem ShiftedBy.writeBack {d : Reg} {v v' : Word} (hv : v' = v) (hnext : writeBack d v s = .next s') :
    ∃ t', Machine.writeBack d v' t = .next t' ∧ ShiftedBy b s' t' := by
  obtain rfl := writeBack_eq_next.1 hnext
  rw [hv]
  exact ⟨_, rfl, (h.writeReg d v).setPc_add 1#16⟩

theorem ShiftedBy.store {d : Reg} {a a' : Word} (ha : a' = a) (hnext : store d a s = .next s') :
    ∃ t', Machine.store d a' t = .next t' ∧ ShiftedBy b s' t' := by
  obtain rfl := store_eq_next.1 hnext
  rw [ha, Machine.store, h.readReg]
  exact ⟨_, rfl, (h.writeCell a _).setPc_add 1#16⟩

theorem ShiftedBy.branch {c c' : Bool} {n : Int} (hc : c' = c) (hnext : branch c (branchTarget s n) s = .next s') :
    ∃ t', Machine.branch c' (branchTarget t n) t = .next t' ∧ ShiftedBy b s' t' := by
  obtain rfl := branch_eq_next.1 hnext
  rw [hc]
  cases c
  · exact ⟨_, rfl, h.setPc_add 1#16⟩
  · exact ⟨_, rfl, h.setPc_add (immWord n)⟩

/-- An instruction reads the registers, the cells and the parameters, which are the same in both states. -/
theorem ShiftedBy.exec {i : Instr} (hnext : exec i s = .next s') :
    ∃ t', Machine.exec i t = .next t' ∧ ShiftedBy b s' t' := by
  cases i
  case not | add | sub | or | and | addi => exact h.writeBack (by simp only [h.readReg]) hnext
  case read | readi => exact h.writeBack (by simp only [eaRegReg, eaRegImm, h.readReg, h.readCell]) hnext
  case write | writei => exact h.store (by simp only [eaRegReg, eaRegImm, h.readReg]) hnext
  case beq | bgt | bge => exact h.branch (by simp only [h.readReg, h.params]) hnext

/-! ## Steps -/

theorem ShiftedBy.fetchDecode_ok_iff {i : Instr} : fetchDecode t = .ok i ↔ fetchDecode s = .ok i := by
  rw [fetchDecode_eq_ok, fetchDecode_eq_ok, h.fetchCell_pc, h.params]

theorem ShiftedBy.fetchDecode_error {f : Fault} (hf : fetchDecode s = .error f) :
    fetchDecode t = .error (f.shift b) := by
  have hpc : t.pc = s.pc + b := h.2.2.2.1
  rw [fetchDecode_eq_error] at hf ⊢
  rw [h.fetchCell_pc, h.params, hpc]
  rcases hf with ⟨hnone, rfl⟩ | ⟨w, e, hw, he, rfl⟩
  · exact .inl ⟨hnone, rfl⟩
  · exact .inr ⟨w, e, hw, he, faultOf_shift b s.pc w e⟩

theorem ShiftedBy.step_next (hnext : step s = .next s') : ∃ t', step t = .next t' ∧ ShiftedBy b s' t' := by
  obtain ⟨i, hi, hexec⟩ := step_eq_next hnext
  rw [step_of_ok (h.fetchDecode_ok_iff.2 hi)]
  exact h.exec hexec

theorem ShiftedBy.step_fault {f : Fault} (hfault : step s = .fault f) : step t = .fault (f.shift b) := by
  cases hi : fetchDecode s with
  | ok i =>
    obtain ⟨u, hu⟩ := exec_completes i s
    rw [step_of_ok hi, hu] at hfault
    cases hfault
  | error g =>
    rw [step_of_error hi] at hfault
    cases hfault
    exact step_of_error (h.fetchDecode_error hi)

end

/-! ## Runs -/

/-- A run that stops does so at its first step, or after it. -/
theorem runFor_succ_eq_fault {s : State} {f : Fault} {n : Nat} (h : runFor (n + 1) s = .fault f) :
    step s = .fault f ∨ ∃ u, step s = .next u ∧ runFor n u = .fault f := by
  rcases step_next_or_fault s with ⟨u, hu⟩ | ⟨g, hg⟩
  · exact .inr ⟨u, hu, by rw [← runFor_succ_of_next n hu, h]⟩
  · rw [runFor_succ_of_fault n hg] at h
    cases h
    exact .inl hg

theorem ShiftedBy.runFor_next {b : Word} {n : Nat} {s s' t : State} (h : ShiftedBy b s t)
    (hrun : runFor n s = .next s') : ∃ t', runFor n t = .next t' ∧ ShiftedBy b s' t' := by
  induction n generalizing s t with
  | zero => cases hrun; exact ⟨t, rfl, h⟩
  | succ n ih =>
    obtain ⟨u, hu, hrest⟩ := runFor_succ_eq_next hrun
    obtain ⟨v, hv, huv⟩ := h.step_next hu
    rw [runFor_succ_of_next n hv]
    exact ih huv hrest

theorem ShiftedBy.runFor_fault {b : Word} {n : Nat} {s t : State} {f : Fault} (h : ShiftedBy b s t)
    (hrun : runFor n s = .fault f) : runFor n t = .fault (f.shift b) := by
  induction n generalizing s t with
  | zero => cases hrun
  | succ n ih =>
    rcases runFor_succ_eq_fault hrun with hstop | ⟨u, hu, hrest⟩
    · exact runFor_succ_of_fault n (h.step_fault hstop)
    · obtain ⟨v, hv, huv⟩ := h.step_next hu
      rw [runFor_succ_of_next n hv]
      exact ih huv hrest

/-- Settles O41: moved states make matching steps, and stop with matching faults, so the match goes through the run. -/
theorem runsArePositionIndependent : Obligations.RunsArePositionIndependent :=
  fun _ _ _ _ h => ⟨fun _ => h.runFor_next, fun _ => h.runFor_fault⟩

end Sys2Proof.Machine
end

section
/-! The load and the premises of a run (70_reset_and_hazards.md R203, R204, R206): the boot sets them up, a passive host
keeps the run the machine's own, and the premises determine it. -/

namespace Sys2Proof.Machine

/-! ## Boot -/

/-- The state that the boot gives when the image fits. -/
def bootState (p : Params) (regs : Vector Word 15) (data : Memory) (image : List Word) : State where
  x := regs
  pc := resetPc
  dmem := data
  imem := imageFrom 0 image
  params := p

theorem boot_eq (p : Params) (regs : Vector Word 15) (data : Memory) (image : List Word) :
    boot p regs data image = if image.length ≤ Config.cells then some (bootState p regs data image) else none := rfl

theorem boot_eq_some {p : Params} {regs : Vector Word 15} {data : Memory} {image : List Word} {s : State} :
    boot p regs data image = some s ↔ image.length ≤ Config.cells ∧ bootState p regs data image = s := by
  simp [boot_eq]

theorem boot_eq_none {p : Params} {regs : Vector Word 15} {data : Memory} {image : List Word}
    (h : Config.cells < image.length) : boot p regs data image = none := by
  simp [boot_eq, h]

section
variable (p : Params) (regs : Vector Word 15) (data : Memory) (image : List Word)

theorem bootState_imageLoaded : ImageLoaded image (bootState p regs data image) := fun a => by
  simp [State.fetchCell, bootState, find?_imageFrom]

theorem bootState_inv (hfit : image.length ≤ Config.cells) (hdata : data.wf = true) : (bootState p regs data image).Inv :=
  ⟨hdata, risingFrom_imageFrom image 0 (by rwa [Nat.zero_add])⟩

end

/-- Settles O42: an image that fits gives the booted state, which has each premise by its definition. -/
theorem bootEstablishesThePremises : Obligations.BootEstablishesThePremises := fun p regs data image =>
  ⟨fun hfit => ⟨_, boot_eq_some.2 ⟨hfit, rfl⟩, rfl, rfl, bootState_imageLoaded p regs data image, rfl, rfl, rfl,
    bootState_inv p regs data image hfit⟩, boot_eq_none⟩

/-! ## Runs observed step by step -/

/-- A run without a fault has none on the way. -/
theorem NoFaultFor.of_le {n k : Nat} {s : State} (h : NoFaultFor n s) (hk : k ≤ n) : NoFaultFor k s := by
  induction k generalizing n s with
  | zero => exact ⟨s, rfl⟩
  | succ k ih =>
    obtain ⟨m, rfl⟩ := Nat.exists_eq_add_of_lt hk
    obtain ⟨t, ht⟩ := h
    obtain ⟨u, hu, hrest⟩ := runFor_succ_eq_next ht
    obtain ⟨v, hv⟩ := ih ⟨t, hrest⟩ (Nat.le_add_right k m)
    exact ⟨v, by rw [runFor_succ_of_next k hu, hv]⟩

/-- The last step of a run, after the others. -/
theorem runFor_succ_iff {k : Nat} {s t u : State} (h : runFor k s = .next t) :
    runFor (k + 1) s = .next u ↔ step t = .next u := by
  rw [runFor_add_of_next h]
  constructor
  · intro h1
    obtain ⟨v, hv, hvu⟩ := runFor_succ_eq_next h1
    cases hvu
    exact hv
  · intro hu
    rw [runFor_succ_of_next 0 hu, runFor_zero]

theorem NoFaultFor.step {n k : Nat} {s t : State} (h : NoFaultFor n s) (hk : k < n) (ht : runFor k s = .next t) :
    ∃ u, Machine.step t = .next u := by
  obtain ⟨u, hu⟩ := h.of_le hk
  exact ⟨u, (runFor_succ_iff ht).1 hu⟩

/-- Settles O50: the state seen after each cycle is the step's answer, which is the next state of the machine's run. -/
theorem passiveHostSeesTheMachinesRun : Obligations.PassiveHostSeesTheMachinesRun := by
  intro n run hpassive hfault k hk
  induction k with
  | zero => rfl
  | succ k ih =>
    have hrun := ih (Nat.le_of_succ_le hk)
    obtain ⟨u, hu⟩ := hfault.step hk hrun
    rw [runFor_succ_iff hrun, hpassive k hk u hu]
    exact hu

/-! ## The machine's own run meets the premises -/

/-- The states of the machine's run from `s`, and `s` itself where the run has stopped. -/
def machineRun (s : State) (k : Nat) : State :=
  match runFor k s with
  | .next t => t
  | .fault _ => s
  | .refused _ => s

theorem machineRun_of_next {s t : State} {k : Nat} (h : runFor k s = .next t) : machineRun s k = t := by
  simp [machineRun, h]

theorem hostPassive_machineRun {n : Nat} {s : State} (h : NoFaultFor n s) : HostPassive n (machineRun s) := by
  intro k hk t ht
  obtain ⟨u, hu⟩ := h.of_le (Nat.le_of_lt hk)
  rw [machineRun_of_next hu] at ht
  exact machineRun_of_next ((runFor_succ_iff hu).2 ht)

/-- A step fetches from a cell with a value, and the run has kept the cells as they were loaded. -/
theorem pc_lt_of_step {image : List Word} {k : Nat} {s t u : State} (hload : ImageLoaded image s)
    (ht : runFor k s = .next t) (hu : step t = .next u) : t.pc.toNat < image.length := by
  obtain ⟨i, hi, -⟩ := step_eq_next hu
  obtain ⟨w, hw, -⟩ := fetchDecode_eq_ok.1 hi
  have hcell : t.fetchCell t.pc = s.fetchCell t.pc := by rw [State.fetchCell, runFor_imem ht, State.fetchCell]
  rw [hcell, hload] at hw
  exact (List.getElem?_eq_some_iff.1 hw).1

theorem imageCovers_machineRun {image : List Word} {n : Nat} {s : State} (hload : ImageLoaded image s)
    (h : NoFaultFor n s) : ImageCovers image n (machineRun s) := by
  intro k hk
  obtain ⟨t, ht⟩ := h.of_le (Nat.le_of_lt hk)
  obtain ⟨u, hu⟩ := h.step hk ht
  rw [machineRun_of_next ht]
  exact pc_lt_of_step hload ht hu

/-- Settles O49: the run is the machine's own, so the host is passive in it and the image covers what it fetches. -/
theorem bootedRunMeetsThePremises : Obligations.BootedRunMeetsThePremises := by
  intro p regs data image s n hboot hfault
  obtain ⟨-, rfl⟩ := boot_eq_some.1 hboot
  have hload := bootState_imageLoaded p regs data image
  exact ⟨machineRun _, rfl,
    { params_fixed := rfl
      entry_at_reset_pc := rfl
      image_loaded := ⟨hload, imageCovers_machineRun hload hfault⟩
      r0_zero := rfl
      regs_unwritten := rfl
      dmem_as_given := rfl
      no_fault_recorded := hfault
      host_passive := hostPassive_machineRun hfault }⟩

/-! ## The premises determine the run -/

section
variable {b : Word} {s t : State} (h : ShiftedBy b s t)
include h

theorem ShiftedBy.selfBranchTaken (i : Instr) : selfBranchTaken t i = selfBranchTaken s i := by
  cases i
  case beq | bgt | bge => simp only [Machine.selfBranchTaken, h.readReg, h.params]
  all_goals rfl

theorem ShiftedBy.terminal : t.terminal = s.terminal := by
  rw [Bool.eq_iff_iff, terminal_iff, terminal_iff]
  simp only [h.fetchDecode_ok_iff, h.selfBranchTaken]

end

/-- The states with which two runs start under the same premises differ in the form of the instruction memory at most. -/
theorem RunPremises.start_shiftedBy {p : Params} {regs : Vector Word 15} {data : Memory} {image : List Word} {n : Nat}
    {run run' : Nat → State} (h : RunPremises p regs data image n run) (h' : RunPremises p regs data image n run') :
    ShiftedBy 0 (run 0) (run' 0) := by
  refine ⟨h'.regs_unwritten.trans h.regs_unwritten.symm, h'.dmem_as_given.trans h.dmem_as_given.symm,
    h'.params_fixed.trans h.params_fixed.symm, ?_, fun a => ?_⟩
  · rw [h'.entry_at_reset_pc, h.entry_at_reset_pc]
    rfl
  · rw [h.image_loaded.1, h'.image_loaded.1, add_zero]

theorem RunPremises.run_eq {p : Params} {regs : Vector Word 15} {data : Memory} {image : List Word} {n k : Nat}
    {run : Nat → State} (h : RunPremises p regs data image n run) (hk : k ≤ n) : runFor k (run 0) = .next (run k) :=
  passiveHostSeesTheMachinesRun n run h.host_passive h.no_fault_recorded k hk

/-- Settles O51: both runs are the machine's own from starts that a move by 0 relates, which relates every later state. -/
theorem premisesDetermineTheRun : Obligations.PremisesDetermineTheRun := by
  intro p regs data image n run run' h h' k hk
  obtain ⟨u, hu, hshift⟩ := (h.start_shiftedBy h').runFor_next (h.run_eq hk)
  obtain rfl := Host.Outcome.next.inj (hu.symm.trans (h'.run_eq hk))
  have hterminal := hshift.terminal
  obtain ⟨hx, hdmem, hparams, hpc, hcell⟩ := hshift
  simp only [add_zero] at hpc hcell
  exact ⟨hx.symm, hpc.symm, hdmem.symm, hparams.symm, fun a => (hcell a).symm, hterminal.symm⟩

end Sys2Proof.Machine
end

section
/-! The datapath (45_datapath_control.md R150 to R171): one cycle per shape of control signals, held against the shared
shapes of the instructions. -/

namespace Sys2Proof.Machine

/-! ## The control-signal table -/

/-- Settles O35: the laws are checked row by row. -/
theorem controlSignalInvariants : Obligations.ControlSignalInvariants := by
  refine ⟨forall_nibble (by decide), forall_nibble fun op sig hrow => ?_⟩
  fin_cases op <;> cases hrow <;> decide

/-! ## One cycle -/

section
variable {s : State} {w : Word} {op : Nibble} {sig : Signals} {b : Word}

theorem aluOperand2_register (h : sig.aluImmediate = false) :
    aluOperand2 s sig w = some (s.readReg (regOf (field3 w))) := by
  simp [aluOperand2, h]

theorem aluOperand2_immediate (h : sig.aluImmediate = true) {n : Int}
    (hn : immediate s.params.immDecode (field3 w) = some n) : aluOperand2 s sig w = some (immWord n) := by
  simp [aluOperand2, h, hn]

/-- A cycle with register write alone is a write back of the data output. -/
theorem cycle_writeBack (hop : field0 w = op) (hsig : decoder op = some sig)
    (hreg : sig.registerWriteEnable = true) (hmem : sig.memoryWriteEnable = false) (hjump : sig.jumpEnable = false)
    (hb : aluOperand2 s sig w = some b) {v : Word}
    (hv : dataOut s sig (aluResult op sig.negateOutput (s.readReg (regOf (field2 w))) b) = some v) :
    datapathCycle s w = some (s.writeReg (regOf (field1 w)) v).advance := by
  simp [datapathCycle, hop, hsig, hb, nextPc, hjump, memoryPort, hmem, registerPort, hreg, hv, State.advance]

/-- A cycle with memory write alone is a store at the ALU's result. -/
theorem cycle_store (hop : field0 w = op) (hsig : decoder op = some sig)
    (hreg : sig.registerWriteEnable = false) (hmem : sig.memoryWriteEnable = true) (hjump : sig.jumpEnable = false)
    (hb : aluOperand2 s sig w = some b) {a : Word}
    (ha : aluResult op sig.negateOutput (s.readReg (regOf (field2 w))) b = some a) :
    datapathCycle s w = some (s.writeCell a (s.readReg (regOf (field1 w)))).advance := by
  simp [datapathCycle, hop, hsig, hb, nextPc, hjump, memoryPort, hmem, registerPort, hreg, ha, State.advance]

/-- A cycle with jump alone is a branch on the ALU's condition. -/
theorem cycle_branch (hop : field0 w = op) (hsig : decoder op = some sig)
    (hreg : sig.registerWriteEnable = false) (hmem : sig.memoryWriteEnable = false) (hjump : sig.jumpEnable = true)
    (hb : aluOperand2 s sig w = some b) {n : Int} (hn : immediate s.params.immDecode (field1 w) = some n) {c : Bool}
    (hc : aluCondition s.params.cmp op (s.readReg (regOf (field2 w))) b = some c) :
    datapathCycle s w = some (if c then s.setPc (branchTarget s n) else s.advance) := by
  cases c <;>
    simp [datapathCycle, hop, hsig, hb, nextPc, hjump, memoryPort, hmem, registerPort, hreg, hn, hc, State.advance,
      branchTarget]

end

/-- Settles O34: the row of each opcode makes the cycle one of the three shapes, on the operands that the word holds. -/
theorem datapathAgreesWithTheInstruction : Obligations.DatapathAgreesWithTheInstruction := by
  intro s w i h
  obtain ⟨hop, hread⟩ := decode_eq_ok_iff.1 h
  cases i
  case not =>
    obtain ⟨⟨rfl, rfl, rfl⟩, -⟩ := hread
    exact ⟨_, cycle_writeBack hop rfl rfl rfl rfl (aluOperand2_register rfl) rfl, rfl⟩
  case add | sub | or | and | read =>
    obtain ⟨rfl, rfl, rfl⟩ := hread
    exact ⟨_, cycle_writeBack hop rfl rfl rfl rfl (aluOperand2_register rfl) rfl, rfl⟩
  case addi | readi =>
    obtain ⟨rfl, rfl, hn⟩ := hread
    exact ⟨_, cycle_writeBack hop rfl rfl rfl rfl (aluOperand2_immediate rfl hn) rfl, rfl⟩
  case write =>
    obtain ⟨rfl, rfl, rfl⟩ := hread
    exact ⟨_, cycle_store hop rfl rfl rfl rfl (aluOperand2_register rfl) rfl, rfl⟩
  case writei =>
    obtain ⟨rfl, rfl, hn⟩ := hread
    exact ⟨_, cycle_store hop rfl rfl rfl rfl (aluOperand2_immediate rfl hn) rfl, rfl⟩
  case beq | bgt | bge =>
    obtain ⟨hn, rfl, rfl⟩ := hread
    exact ⟨_, cycle_branch hop rfl rfl rfl rfl (aluOperand2_register rfl) hn rfl, rfl⟩

end Sys2Proof.Machine
end

section
/-! The assembly language (30_encoding.md R80 to R85, 44_pseudoinstructions.md): a line is its tokens with one space
between, so what a line is read as is what its tokens are read as; and what the reading gives is well-formed. -/

namespace Sys2Proof.Machine

/-! ## Lines -/

/-- The line of a list of tokens, one space between two of them (R80). -/
def spaced : List Text → Text
  | [] => []
  | [t] => t
  | t :: u :: ts => t ++ ' ' :: spaced (u :: ts)

theorem tokens_spaced {ts : List Text} (hne : ts ≠ []) (h : ∀ t ∈ ts, Plain t) : tokens (spaced ts) = ts := by
  induction ts with
  | nil => exact absurd rfl hne
  | cons t ts ih =>
    have ht : Plain t := h t List.mem_cons_self
    cases ts with
    | nil => exact tokens_plain ht
    | cons u ts =>
      rw [spaced, tokens_append ht, ih (List.cons_ne_nil u ts) fun x hx => h x (List.mem_cons_of_mem t hx)]

theorem spaced_no_comment {ts : List Text} (h : ∀ t ∈ ts, Plain t) : ∀ c ∈ spaced ts, c ≠ '#' := by
  induction ts with
  | nil => nofun
  | cons t ts ih =>
    have ht : ∀ c ∈ t, c ≠ '#' := fun c hc => (h t List.mem_cons_self c hc).2
    cases ts with
    | nil => exact ht
    | cons u ts =>
      have hrest := ih fun x hx => h x (List.mem_cons_of_mem t hx)
      intro c hc
      simp only [spaced, List.mem_append, List.mem_cons] at hc
      rcases hc with hc | rfl | hc
      · exact ht c hc
      · decide
      · exact hrest c hc

theorem parseLine_of_strip {line t : Text} {i : Instr} (hstrip : stripComment line = t)
    (h : parseTokens (tokens t) = some i) : parseLine line = some (.code i) := by
  have hne : t ≠ [] := by rintro rfl; cases h
  simp [parseLine, hstrip, hne, h]

/-- A line is read as its tokens are, with a comment and without. -/
theorem parseLine_spaced {ts : List Text} {i : Instr} (hplain : ∀ t ∈ ts, Plain t) (h : parseTokens ts = some i) :
    parseLine (spaced ts) = some (.code i) ∧ ∀ c, parseLine (spaced ts ++ ' ' :: '#' :: c) = some (.code i) := by
  have hne : ts ≠ [] := by rintro rfl; cases h
  have htokens : parseTokens (tokens (spaced ts)) = some i := by rw [tokens_spaced hne hplain, h]
  have hcomment := spaced_no_comment hplain
  exact ⟨parseLine_of_strip (stripComment_of_none hcomment) htokens,
    fun c => parseLine_of_strip (stripComment_comment hcomment c) htokens⟩

/-! ## Real instructions -/

/-- A mnemonic of format I with two registers and an immediate in range is read as its instruction on them. -/
theorem parseTokens_of_formI {m : Text} {make : Reg → Reg → Int → Instr}
    (h : (realForms.find? fun f => decide (f.1 = m)) = some (m, parseI make)) (d s1 : Reg) {n : Int}
    (hn : immInRange n = true) : parseTokens [m, regText d, regText s1, immText n] = some (make d s1 n) := by
  simp [parseTokens, parseReal, h, parseI, parseImm_immText hn]

theorem parseTokens_not (d s1 : Reg) :
    parseTokens [['n', 'o', 't'], regText d, regText s1, regText 0] = some (.not d s1 0) := by
  have hform : (realForms.find? fun f => decide (f.1 = ['n', 'o', 't'])) = some (['n', 'o', 't'], parseNot) := rfl
  simp [parseTokens, parseReal, hform, parseNot]

/-- The tokens of a documented instruction: its mnemonic and three operands, which are read as it. -/
theorem lineText_tokens {i : Instr} (h : i.wellFormed { initialParams with notS2 := .refuse } = true) :
    ∃ a b c, lineText i = spaced [mnemonicText i, a, b, c] ∧ (Plain a ∧ Plain b ∧ Plain c) ∧
      parseTokens [mnemonicText i, a, b, c] = some i := by
  cases i
  case not d s1 s2 =>
    obtain rfl : s2 = 0 := by simpa [Instr.wellFormed, notFormAdmitted] using h
    exact ⟨_, _, _, by simp [lineText, spaced], ⟨plain_regText d, plain_regText s1, plain_regText 0⟩,
      parseTokens_not d s1⟩
  case add d s1 s2 | sub d s1 s2 | or d s1 s2 | and d s1 s2 | read d s1 s2 | write d s1 s2 =>
    exact ⟨_, _, _, by simp [lineText, spaced], ⟨plain_regText d, plain_regText s1, plain_regText s2⟩,
      parseTokens_of_formR rfl d s1 s2⟩
  case beq n s1 s2 | bgt n s1 s2 | bge n s1 s2 =>
    exact ⟨_, _, _, by simp [lineText, spaced], ⟨plain_immText h, plain_regText s1, plain_regText s2⟩,
      parseTokens_of_formJ rfl s1 s2 h⟩
  case addi d s1 n | readi d s1 n | writei d s1 n =>
    exact ⟨_, _, _, by simp [lineText, spaced], ⟨plain_regText d, plain_regText s1, plain_immText h⟩,
      parseTokens_of_formI rfl d s1 h⟩

/-- Settles O43: the line falls into the four tokens of the instruction, which are read as it. -/
theorem assemblyLineRoundTrip : Obligations.AssemblyLineRoundTrip := by
  intro i comment h
  obtain ⟨a, b, c, hline, ⟨ha, hb, hc⟩, hparse⟩ := lineText_tokens h
  have hplain : ∀ t ∈ [mnemonicText i, a, b, c], Plain t := by simp [plain_mnemonicText i, ha, hb, hc]
  obtain ⟨hplainLine, hcommented⟩ := parseLine_spaced hplain hparse
  rw [hline]
  exact ⟨hplainLine, hcommented comment⟩

/-! ## Pseudo-instructions -/

/-- The tokens of a pseudo-instruction's line. -/
def pseudoTokens : Pseudo → List Text
  | .notSelf r => [['n', 'o', 't'], regText r]
  | .idle      => [['i', 'd', 'l', 'e']]
  | .inc r     => [['+', '+'], regText r]
  | .dec r     => [['-', '-'], regText r]
  | .move a b  => [['m', 'o', 'v', 'e'], regText a, regText b]

theorem pseudoText_eq (q : Pseudo) : pseudoText q = spaced (pseudoTokens q) := by cases q <;> rfl

theorem pseudoTokens_plain (q : Pseudo) : ∀ t ∈ pseudoTokens q, Plain t := by
  have hnot : Plain ['n', 'o', 't'] := plain_of_all rfl
  have hidle : Plain ['i', 'd', 'l', 'e'] := plain_of_all rfl
  have hinc : Plain ['+', '+'] := plain_of_all rfl
  have hdec : Plain ['-', '-'] := plain_of_all rfl
  have hmove : Plain ['m', 'o', 'v', 'e'] := plain_of_all rfl
  cases q <;> simp [pseudoTokens, plain_regText, hnot, hidle, hinc, hdec, hmove]

theorem parseTokens_pseudoTokens (q : Pseudo) : parseTokens (pseudoTokens q) = some (expand q) := by
  cases q with
  | notSelf r => exact parseTokens_notSelf r
  | idle => rfl
  | inc r => simp [pseudoTokens, parseTokens, parsePseudo1]
  | dec r => simp [pseudoTokens, parseTokens, parsePseudo1]
  | move a b => exact parseTokens_move a b

/-- Settles O44: the line falls into the spelling's tokens, which are read as its expansion. -/
theorem pseudoInstructionLinesExpand : Obligations.PseudoInstructionLinesExpand := by
  refine ⟨fun q => ?_, fun c => by simp [parseLine, stripComment]⟩
  rw [pseudoText_eq]
  exact (parseLine_spaced (pseudoTokens_plain q) (parseTokens_pseudoTokens q)).1

theorem shortSpelling_expand {q : Pseudo} (h : q ≠ .notSelf 0) : shortSpelling (expand q) = some q := by
  cases q with
  | notSelf r =>
    have hr : r ≠ 0 := fun h0 => h (congrArg _ h0)
    simp [expand, shortSpelling, hr]
  | idle | inc r | dec r | move a b => simp [expand, shortSpelling]

theorem expand_of_shortSpelling {i : Instr} {q : Pseudo} (h : shortSpelling i = some q) :
    expand q = i ∧ q ≠ .notSelf 0 := by
  cases i <;> simp only [shortSpelling, reduceCtorEq] at h
  case not d s1 s2 =>
    split at h
    · next hc =>
      obtain ⟨rfl, rfl⟩ := hc
      cases h
      split
      · next hd => subst hd; exact ⟨rfl, nofun⟩
      · next hd => exact ⟨rfl, fun hq => hd (Pseudo.notSelf.inj hq)⟩
    · cases h
  case addi d s1 n =>
    split at h
    · next hc => obtain ⟨rfl, rfl⟩ := hc; cases h; exact ⟨rfl, nofun⟩
    · split at h
      · next hc => obtain ⟨rfl, rfl⟩ := hc; cases h; exact ⟨rfl, nofun⟩
      · cases h
  case add d s1 s2 =>
    split at h
    · next hc => subst hc; cases h; exact ⟨rfl, nofun⟩
    · cases h

/-- Settles O47: a short spelling stands for its expansion, and every expansion has one, `not r0` that of `idle`. -/
theorem shortSpellingsAreExactlyTheExpansions : Obligations.ShortSpellingsAreExactlyTheExpansions := by
  refine fun i q => ⟨expand_of_shortSpelling, ?_⟩
  rintro ⟨rfl, hq⟩
  exact shortSpelling_expand hq

end Sys2Proof.Machine
end

section
/-! The translator (30_encoding.md R86, R87): it accepts documented instructions only, so each word it saves decodes, and
the saved image loads as the program's instructions. -/

namespace Sys2Proof.Machine

/-! ## What is read is well-formed -/

/-- A word stands for the instruction under any parameters. -/
def Admitted (i : Instr) : Prop := ∀ p, i.wellFormed p = true

theorem admitted_expand (q : Pseudo) : Admitted (expand q) := by
  intro p
  cases q <;> simp [expand, Instr.wellFormed, notFormAdmitted, immInRange]

/-- The readings of three operands whose instructions are well-formed: that of `not`, and the three formats. -/
inductive AdmittedForm : (Text → Text → Text → Option Instr) → Prop where
  | not : AdmittedForm parseNot
  | formR (make : Reg → Reg → Reg → Instr) (h : ∀ d s1 s2, Admitted (make d s1 s2)) : AdmittedForm (parseR make)
  | formI (make : Reg → Reg → Int → Instr) (h : ∀ d s1 n, immInRange n = true → Admitted (make d s1 n)) :
      AdmittedForm (parseI make)
  | formJ (make : Int → Reg → Reg → Instr) (h : ∀ n s1 s2, immInRange n = true → Admitted (make n s1 s2)) :
      AdmittedForm (parseJ make)

theorem realForms_admitted : ∀ f ∈ realForms, AdmittedForm f.2 := by
  have formR {make} (h : ∀ d s1 s2 p, (make d s1 s2 : Instr).wellFormed p = true) : AdmittedForm (parseR make) :=
    .formR make h
  have formI {make} (h : ∀ d s1 n p, (make d s1 n : Instr).wellFormed p = immInRange n) : AdmittedForm (parseI make) :=
    .formI make fun d s1 n hn p => (h d s1 n p).trans hn
  have formJ {make} (h : ∀ n s1 s2 p, (make n s1 s2 : Instr).wellFormed p = immInRange n) : AdmittedForm (parseJ make) :=
    .formJ make fun n s1 s2 hn p => (h n s1 s2 p).trans hn
  simp only [realForms, List.forall_mem_cons]
  exact ⟨.not, formR fun _ _ _ _ => rfl, formR fun _ _ _ _ => rfl, formR fun _ _ _ _ => rfl, formR fun _ _ _ _ => rfl,
    formJ fun _ _ _ _ => rfl, formJ fun _ _ _ _ => rfl, formJ fun _ _ _ _ => rfl, formI fun _ _ _ _ => rfl,
    formR fun _ _ _ _ => rfl, formR fun _ _ _ _ => rfl, formI fun _ _ _ _ => rfl, formI fun _ _ _ _ => rfl, nofun⟩

theorem AdmittedForm.admitted {form : Text → Text → Text → Option Instr} (hform : AdmittedForm form) {a b c : Text}
    {i : Instr} (h : form a b c = some i) : Admitted i := by
  cases hform with
  | not =>
    unfold parseNot at h
    split at h
    · next hc =>
      obtain ⟨d, s1, s2, -, -, hs2, rfl⟩ := parseR_eq_some.1 h
      obtain rfl : 0 = s2 := by simpa [hc] using hs2
      simp [Admitted, Instr.wellFormed, notFormAdmitted]
    · cases h
  | formR make hmake =>
    obtain ⟨d, s1, s2, -, -, -, rfl⟩ := parseR_eq_some.1 h
    exact hmake d s1 s2
  | formI make hmake =>
    obtain ⟨d, s1, n, -, -, hn, rfl⟩ := parseI_eq_some.1 h
    exact hmake d s1 n (parseImm_inRange hn)
  | formJ make hmake =>
    obtain ⟨n, s1, s2, hn, -, -, rfl⟩ := parseJ_eq_some.1 h
    exact hmake n s1 s2 (parseImm_inRange hn)

theorem admitted_of_parseReal {m a b c : Text} {i : Instr} (h : parseReal m a b c = some i) : Admitted i := by
  obtain ⟨f, hfind, hread⟩ := Option.bind_eq_some_iff.1 h
  exact (realForms_admitted f (List.mem_of_find?_eq_some hfind)).admitted hread

theorem admitted_of_map_expand {o : Option Pseudo} {i : Instr} (h : o.map expand = some i) : Admitted i := by
  obtain ⟨q, -, rfl⟩ := Option.map_eq_some_iff.1 h
  exact admitted_expand q

theorem admitted_of_parseTokens {ts : List Text} {i : Instr} (h : parseTokens ts = some i) : Admitted i := by
  unfold parseTokens at h
  split at h
  case h_1 =>
    split at h
    · cases h; exact admitted_expand .idle
    · cases h
  case h_2 | h_3 => exact admitted_of_map_expand h
  case h_4 => exact admitted_of_parseReal h
  case h_5 => cases h

theorem admitted_of_parseLine {line : Text} {i : Instr} (h : parseLine line = some (.code i)) : Admitted i := by
  simp only [parseLine] at h
  split at h
  · cases h
  · obtain ⟨j, hj, hcode⟩ := Option.map_eq_some_iff.1 h
    cases hcode
    exact admitted_of_parseTokens hj

theorem admitted_of_parseProgram {lines : List Text} {is : List Instr} (h : parseProgram lines = some is) :
    ∀ i ∈ is, Admitted i := by
  induction lines generalizing is with
  | nil => cases h; nofun
  | cons line rest ih =>
    simp only [parseProgram, Option.bind_eq_some_iff, Option.map_eq_some_iff] at h
    obtain ⟨l, hline, js, hrest, his⟩ := h
    cases l with
    | empty => cases his; exact ih hrest
    | code j =>
      cases his
      exact List.forall_mem_cons.2 ⟨admitted_of_parseLine hline, ih hrest⟩

theorem Admitted.decode_encode {i : Instr} (h : Admitted i) (p : Params) : decode p (encode p i) = .ok i :=
  decodeOfEncodeIsTheInstruction p i (h p)

/-- Settles O48: each word is that of an instruction that was read, which is well-formed under any parameters. -/
theorem translatedWordsAllDecode : Obligations.TranslatedWordsAllDecode := by
  intro p lines ws h w hw
  obtain ⟨is, his, rfl⟩ := Option.map_eq_some_iff.1 h
  obtain ⟨i, hi, rfl⟩ := List.mem_map.1 hw
  exact ⟨i, (admitted_of_parseProgram his i hi).decode_encode p, rfl⟩

/-! ## The command -/

/-- A command on an accepted program saves its words under the output's name and keeps every other file. -/
theorem run_saves {p : Params} {c : CommandLine} {files : Files} {lines : List Text} {is : List Instr}
    (hfile : files.find? c.source = some (.program lines)) (his : parseProgram lines = some is) :
    ∃ files', c.run p files = some files' ∧ files'.find? c.outputName = some (.image (is.map (encode p))) ∧
      ∀ other, other ≠ c.outputName → files'.find? other = files.find? other :=
  ⟨_, run_eq_some.2 ⟨lines, is, hfile, his, rfl⟩, find?_save_self _ _ _, fun _ h => find?_save_of_ne files _ h⟩

/-- Settles O52: the two forms are one command with and without the name of its output. -/
theorem translatorSavesTheProgramsWords : Obligations.TranslatorSavesTheProgramsWords := by
  intro p files source output lines is hfile his command name hmem
  simp only [List.mem_cons, Prod.mk.injEq, List.not_mem_nil, or_false] at hmem
  rcases hmem with ⟨rfl, rfl⟩ | ⟨rfl, rfl⟩
  · rw [runCommand_both]
    exact run_saves (c := ⟨source, some name⟩) hfile his
  · rw [runCommand_source]
    exact run_saves (c := ⟨source, none⟩) hfile his

/-! ## The saved image, loaded -/

theorem bootFile_saved (p : Params) (regs : Vector Word 15) (data : Memory) (files : Files) (name : Text)
    {image : List Word} (hfit : image.length ≤ Config.cells) :
    bootFile p regs data (files.save name (.image image)) name = some (bootState p regs data image) := by
  rw [bootFile, image?_save_self]
  exact boot_eq_some.2 ⟨hfit, rfl⟩

/-- Fetching and decoding at address `k` of the loaded words give instruction `k`, or no instruction past the last. -/
theorem fetchDecode_loaded (p : Params) (regs : Vector Word 15) (data : Memory) {is : List Instr}
    (h : ∀ i ∈ is, Admitted i) (k : Word) :
    fetchDecode ((bootState p regs data (is.map (encode p))).setPc k) =
      is[k.toNat]?.elim (.error (.noInstruction k)) .ok := by
  have hcell := bootState_imageLoaded p regs data (is.map (encode p)) k
  rw [List.getElem?_map] at hcell
  cases hi : is[k.toNat]? with
  | none =>
    rw [hi] at hcell
    exact fetchDecode_eq_error.2 (.inl ⟨hcell, rfl⟩)
  | some i =>
    rw [hi] at hcell
    exact fetchDecode_eq_ok.2 ⟨_, hcell, (h i (List.mem_of_getElem? hi)).decode_encode p⟩

/-- Settles O53: the command has saved the program's words, the boot puts word `k` at address `k`, and it decodes to
instruction `k`. -/
theorem translatedFileLoadsAsItsInstructions : Obligations.TranslatedFileLoadsAsItsInstructions := by
  intro p files files' source output lines is regs data hfile his hlength hrun
  rw [runCommand_both] at hrun
  obtain ⟨lines', is', hfile', his', rfl⟩ := run_eq_some.1 hrun
  cases hfile.symm.trans hfile'
  cases his.symm.trans his'
  refine ⟨_, bootFile_saved p regs data files output (by rwa [List.length_map]), rfl, fun k => ?_⟩
  have hk := fetchDecode_loaded p regs data (admitted_of_parseProgram his) k
  cases hi : is[k.toNat]? <;> rw [hi] at hk <;> exact hk

end Sys2Proof.Machine
end
